-- ==== Sys2Proof/Word.lean ====
section
/-! DEFINITION. The machine word (00_scope.md R8, R10, R11). A word is held as the integer its WORD_BITS bits denote in two's
complement: results are "computed on the mathematical integers and then wrapped" (R11). So the type of a word is Int, and the
width is the parameter WORD_BITS, Config.wordBits (R8, decision D1; log entry 1). -/

namespace Sys2Proof

/-- The integers a word of `n` bits denotes: [-2^(n-1), 2^(n-1)-1] (R10). -/
abbrev IsWord (n : Nat) (v : Int) : Prop := -(2 ^ (n - 1)) ≤ v ∧ v < 2 ^ (n - 1)

end Sys2Proof
end

