-- ==== Sys2Proof/Config.lean ====
section
/-! DEFINITION. The implementation parameters of 00_scope.md R8 and the free values of the model.
The parameters are one record, held in the state (log entry 2), so that a claim may quantify over them. -/

namespace Sys2Proof

/-- KINT_ACTION: what the software-interrupt instruction does in Kernel mode (R8, R190, decision D5). -/
inductive KIntAction where
  | halt
  | nop
  | fault
  deriving DecidableEq, Repr

/-- WIRE_ENDIAN: the byte order of a byte-oriented memory channel (R8, R62, decision D17). -/
inductive Endian where
  | little
  | big
  deriving DecidableEq, Repr

/-- OPCODE_MAP: the opcode word of each instruction (30_encoding.md R84, decision D9), one field per row of the table. -/
structure OpcodeMap where
  loadImm : Int
  loadAddr : Int
  loadInd : Int
  loadIdxX : Int
  loadIdxY : Int
  loadSpX : Int
  store : Int
  get : Int
  put : Int
  addX : Int
  addY : Int
  subX : Int
  subY : Int
  copyToX : Int
  copyFromX : Int
  copyToY : Int
  copyFromY : Int
  copyToSp : Int
  copyFromSp : Int
  jump : Int
  jumpIfEqual : Int
  jumpIfNotEqual : Int
  call : Int
  ret : Int
  incX : Int
  decX : Int
  push : Int
  pop : Int
  int : Int
  iRet : Int
  endRun : Int
  deriving DecidableEq, Repr

/-- The reference OPCODE_MAP: the table of R84.
PRESUMED by the spec itself (general knowledge, decision D9; log entry 15). -/
def OpcodeMap.reference : OpcodeMap where
  loadImm := 1
  loadAddr := 2
  loadInd := 3
  loadIdxX := 4
  loadIdxY := 5
  loadSpX := 6
  store := 7
  get := 8
  put := 9
  addX := 10
  addY := 11
  subX := 12
  subY := 13
  copyToX := 14
  copyFromX := 15
  copyToY := 16
  copyFromY := 17
  copyToSp := 18
  copyFromSp := 19
  jump := 20
  jumpIfEqual := 21
  jumpIfNotEqual := 22
  call := 23
  ret := 24
  incX := 25
  decX := 26
  push := 27
  pop := 28
  int := 29
  iRet := 30
  endRun := 50

/-- The opcode words of a map, in the order of R84's table. -/
def OpcodeMap.words (m : OpcodeMap) : List Int :=
  [m.loadImm, m.loadAddr, m.loadInd, m.loadIdxX, m.loadIdxY, m.loadSpX, m.store, m.get] ++
  [m.put, m.addX, m.addY, m.subX, m.subY, m.copyToX, m.copyFromX, m.copyToY] ++
  [m.copyFromY, m.copyToSp, m.copyFromSp, m.jump, m.jumpIfEqual, m.jumpIfNotEqual, m.call, m.ret] ++
  [m.incX, m.decX, m.push, m.pop, m.int, m.iRet, m.endRun]

/-- The parameters that are fixed for a run (R8). `transportMayHang` is the MODEL's own parameter, not the spec's:
whether a Read may stay unanswered for ever (R60, R270; log entry 13). -/
structure Config where
  wordBits : Nat
  memWords : Nat
  userLimit : Nat
  timerBase : Int
  swiBase : Int
  kstackTop : Int
  userSp0 : Int
  opcodeMap : OpcodeMap
  kintAction : KIntAction
  transportFallible : Bool
  transportMayHang : Bool
  wireIntBytes : Nat
  wireEndian : Endian
  deriving DecidableEq, Repr

/-- The reference configuration (R8). `wireIntBytes` and `wireEndian` are OPEN in the spec: DESIGN CHOICE (log entry 14);
no core rule depends on them. `transportMayHang := false`: DESIGN CHOICE (log entry 13). -/
def Config.reference : Config where
  wordBits := 32
  memWords := 2000
  userLimit := 1000
  timerBase := 1000
  swiBase := 1500
  kstackTop := 2000
  userSp0 := 1000
  opcodeMap := OpcodeMap.reference
  kintAction := .halt
  transportFallible := false
  transportMayHang := false
  wireIntBytes := 4
  wireEndian := .little

/-- FREE VALUE: the environment's n-th draw, less one: any number below 100 (41_io.md R131, decision D16; log entry 10). -/
opaque Config.freeDraw : Nat → Fin 100

/-- FREE VALUE: whether the n-th request of a run ends in a transport error, where TRANSPORT_FALLIBLE lets one
(20_memory.md R61, decision D14; log entry 12). -/
opaque Config.freeRequestFails : Nat → Bool

/-- FREE VALUE: whether the n-th request of a run, a Read, is never answered, where the model lets one hang
(20_memory.md R60; log entry 13). -/
opaque Config.freeReadHangs : Nat → Bool

end Sys2Proof
end

