-- ==== Sys2Proof/Syntax.lean ====
section
/-! DEFINITION. The instructions of the CSC ISA: one constructor per row of spec/opcode_table.json (30_encoding.md R84).
A format O instruction carries its operand word whole (R80, R82). -/

namespace Sys2Proof

/-- An instruction (R84). The constructor's docstring gives the mnemonic, the effect and the rule. -/
inductive Instr where
  /-- LoadImm: ac := op (R110). -/
  | loadImm (op : Int)
  /-- LoadAddr: ac := M[op] (R111). -/
  | loadAddr (op : Int)
  /-- LoadInd: ac := M[M[op]] (R112). -/
  | loadInd (op : Int)
  /-- LoadIdxX: ac := M[op + x] (R113). -/
  | loadIdxX (op : Int)
  /-- LoadIdxY: ac := M[op + y] (R114). -/
  | loadIdxY (op : Int)
  /-- LoadSpX: ac := M[sp + x] (R115). -/
  | loadSpX
  /-- Store: M[op] := ac (R116). -/
  | store (op : Int)
  /-- Get: ac := a free word in [1, 100] (R130). -/
  | get
  /-- Put: append an output event; op is the port selector (R132). -/
  | put (op : Int)
  /-- AddX: ac := ac + x (R140). -/
  | addX
  /-- AddY: ac := ac + y (R141). -/
  | addY
  /-- SubX: ac := ac - x (R142). -/
  | subX
  /-- SubY: ac := ac - y (R143). -/
  | subY
  /-- CopyToX: x := ac (R144). -/
  | copyToX
  /-- CopyFromX: ac := x (R145). -/
  | copyFromX
  /-- CopyToY: y := ac (R146). -/
  | copyToY
  /-- CopyFromY: ac := y (R147). -/
  | copyFromY
  /-- CopyToSp: sp := ac (R148). -/
  | copyToSp
  /-- CopyFromSp: ac := sp (R149). -/
  | copyFromSp
  /-- Jump: pc := op (R160). -/
  | jump (op : Int)
  /-- JumpIfEqual: pc := op if ac = 0 (R161). -/
  | jumpIfEqual (op : Int)
  /-- JumpIfNotEqual: pc := op if ac is not 0 (R162). -/
  | jumpIfNotEqual (op : Int)
  /-- Call: push pc, pc := op (R163). -/
  | call (op : Int)
  /-- Ret: pop pc (R164). -/
  | ret
  /-- IncX: x := x + 1 (R180). -/
  | incX
  /-- DecX: x := x - 1 (R181). -/
  | decX
  /-- Push: push ac (R182). -/
  | push
  /-- Pop: pop ac (R183). -/
  | pop
  /-- Int: software interrupt (R190). -/
  | int
  /-- IRet: return from interrupt (R191). -/
  | iRet
  /-- End: halt (R192). -/
  | endRun
  deriving DecidableEq, Repr

/-- Whether the instruction has an operand word (R83): the eleven of format O. -/
def Instr.hasOperand : Instr → Bool
  | .loadImm _ => true
  | .loadAddr _ => true
  | .loadInd _ => true
  | .loadIdxX _ => true
  | .loadIdxY _ => true
  | .loadSpX => false
  | .store _ => true
  | .get => false
  | .put _ => true
  | .addX => false
  | .addY => false
  | .subX => false
  | .subY => false
  | .copyToX => false
  | .copyFromX => false
  | .copyToY => false
  | .copyFromY => false
  | .copyToSp => false
  | .copyFromSp => false
  | .jump _ => true
  | .jumpIfEqual _ => true
  | .jumpIfNotEqual _ => true
  | .call _ => true
  | .ret => false
  | .incX => false
  | .decX => false
  | .push => false
  | .pop => false
  | .int => false
  | .iRet => false
  | .endRun => false

/-- How many words the instruction takes (R87). -/
def Instr.length (i : Instr) : Nat := if i.hasOperand then 2 else 1

end Sys2Proof
end

