-- ==== Sys2Proof/WellFormed.lean ====
section
/-! DEFINITION. Well-formedness: of an instruction (its operand is a word, R82), of an opcode map (R84),
of a configuration (00_scope.md R9) and of the timer limit (10_state.md R28). -/

namespace Sys2Proof

/-- An instruction of `n`-bit words is well formed when its operand is a word (R10, R82); any word will do: "op may be any word"
(R110), and a bad address is a fault of the run, never of the encoding (R86). -/
def Instr.wellFormed (n : Nat) : Instr → Bool
  | .loadImm op => decide (IsWord n op)
  | .loadAddr op => decide (IsWord n op)
  | .loadInd op => decide (IsWord n op)
  | .loadIdxX op => decide (IsWord n op)
  | .loadIdxY op => decide (IsWord n op)
  | .loadSpX => true
  | .store op => decide (IsWord n op)
  | .get => true
  | .put op => decide (IsWord n op)
  | .addX => true
  | .addY => true
  | .subX => true
  | .subY => true
  | .copyToX => true
  | .copyFromX => true
  | .copyToY => true
  | .copyFromY => true
  | .copyToSp => true
  | .copyFromSp => true
  | .jump op => decide (IsWord n op)
  | .jumpIfEqual op => decide (IsWord n op)
  | .jumpIfNotEqual op => decide (IsWord n op)
  | .call op => decide (IsWord n op)
  | .ret => true
  | .incX => true
  | .decX => true
  | .push => true
  | .pop => true
  | .int => true
  | .iRet => true
  | .endRun => true

/-- A map assigns 31 distinct words, one per instruction (R84). -/
abbrev OpcodeMap.Distinct (m : OpcodeMap) : Prop := m.words.Nodup

/-- 0 < USER_LIMIT <= MEM_WORDS (R9). -/
abbrev Config.UserLimitOk (c : Config) : Prop := 0 < c.userLimit ∧ c.userLimit ≤ c.memWords

/-- A handler base lies in [USER_LIMIT, MEM_WORDS) (R9). -/
abbrev Config.HandlerBaseOk (c : Config) (base : Int) : Prop := (c.userLimit : Int) ≤ base ∧ base < (c.memWords : Int)

/-- 2 <= KSTACK_TOP <= MEM_WORDS and KSTACK_TOP - 2 >= USER_LIMIT (R9). -/
abbrev Config.KStackOk (c : Config) : Prop :=
  2 ≤ c.kstackTop ∧ c.kstackTop ≤ (c.memWords : Int) ∧ (c.userLimit : Int) ≤ c.kstackTop - 2

/-- MEM_WORDS < 2^(WORD_BITS-1) (R9). -/
abbrev Config.MemWordsOk (c : Config) : Prop := (c.memWords : Int) < 2 ^ (c.wordBits - 1)

/-- A value is a word of this configuration (R10). -/
abbrev Config.IsWord (c : Config) (v : Int) : Prop := Sys2Proof.IsWord c.wordBits v

/-- What the spec calls a word is one at this width: the draws 1 to 100 (41_io.md R131), USER_SP0 (10_state.md R40)
and the opcode words (R84). DEDUCED (log entry 26): R9 does not list it. -/
abbrev Config.WordsOk (c : Config) : Prop := 8 ≤ c.wordBits ∧ c.IsWord c.userSp0 ∧ ∀ w ∈ c.opcodeMap.words, c.IsWord w

/-- A well-formed configuration: every constraint of R9, a map of distinct words (R84), and words that fit their width. -/
abbrev Config.WF (c : Config) : Prop :=
  c.UserLimitOk ∧ c.HandlerBaseOk c.timerBase ∧ c.HandlerBaseOk c.swiBase ∧ c.KStackOk ∧ c.MemWordsOk ∧
    c.opcodeMap.Distinct ∧ c.WordsOk

/-- The launch premise on timerLimit: 1 <= timerLimit <= 2^(WORD_BITS-1)-1 (R28, R253). -/
abbrev Config.TimerLimitOk (c : Config) (limit : Int) : Prop := 1 ≤ limit ∧ c.IsWord limit

end Sys2Proof
end

