-- ==== Sys2Proof/Decode.lean ====
section
/-! DEFINITION. Decoding (30_encoding.md R80 to R88), total on any list of words and any opcode word, and after it the
encoder, each written from the table of R84. -/

namespace Sys2Proof

/-- `wrap(v)` at `n` bits (00_scope.md R11, decision D2; log entry 17): the integer of [-2^(n-1), 2^(n-1)-1] that the low
`n` bits of `v` denote. -/
def wrap (n : Nat) (v : Int) : Int := (v + 2 ^ (n - 1)) % 2 ^ n - 2 ^ (n - 1)

/-- `wrap` at the width of a configuration (R11). -/
def Config.wrap (c : Config) (v : Int) : Int := Sys2Proof.wrap c.wordBits v

/-- One row of the opcode map: the opcode word, whether an operand word follows, and the instruction it stands for. -/
structure DecodeRow where
  value : Int
  hasOperand : Bool
  build : Int → Instr

/-- R84, load and store rows (40_load_store.md). -/
def loadStoreRows (m : OpcodeMap) : List DecodeRow :=
  [⟨m.loadImm, true, .loadImm⟩,
   ⟨m.loadAddr, true, .loadAddr⟩,
   ⟨m.loadInd, true, .loadInd⟩,
   ⟨m.loadIdxX, true, .loadIdxX⟩,
   ⟨m.loadIdxY, true, .loadIdxY⟩,
   ⟨m.loadSpX, false, fun _ => .loadSpX⟩,
   ⟨m.store, true, .store⟩]

/-- R84, input and output rows (41_io.md). -/
def inOutRows (m : OpcodeMap) : List DecodeRow :=
  [⟨m.get, false, fun _ => .get⟩,
   ⟨m.put, true, .put⟩]

/-- R84, arithmetic and copy rows (42_arith_copy.md). -/
def arithCopyRows (m : OpcodeMap) : List DecodeRow :=
  [⟨m.addX, false, fun _ => .addX⟩,
   ⟨m.addY, false, fun _ => .addY⟩,
   ⟨m.subX, false, fun _ => .subX⟩,
   ⟨m.subY, false, fun _ => .subY⟩,
   ⟨m.copyToX, false, fun _ => .copyToX⟩,
   ⟨m.copyFromX, false, fun _ => .copyFromX⟩,
   ⟨m.copyToY, false, fun _ => .copyToY⟩,
   ⟨m.copyFromY, false, fun _ => .copyFromY⟩,
   ⟨m.copyToSp, false, fun _ => .copyToSp⟩,
   ⟨m.copyFromSp, false, fun _ => .copyFromSp⟩]

/-- R84, control rows (43_control.md). -/
def controlRows (m : OpcodeMap) : List DecodeRow :=
  [⟨m.jump, true, .jump⟩,
   ⟨m.jumpIfEqual, true, .jumpIfEqual⟩,
   ⟨m.jumpIfNotEqual, true, .jumpIfNotEqual⟩,
   ⟨m.call, true, .call⟩,
   ⟨m.ret, false, fun _ => .ret⟩]

/-- R84, index and stack rows (44_index_stack.md). -/
def indexStackRows (m : OpcodeMap) : List DecodeRow :=
  [⟨m.incX, false, fun _ => .incX⟩,
   ⟨m.decX, false, fun _ => .decX⟩,
   ⟨m.push, false, fun _ => .push⟩,
   ⟨m.pop, false, fun _ => .pop⟩]

/-- R84, system rows (45_system.md). -/
def systemRows (m : OpcodeMap) : List DecodeRow :=
  [⟨m.int, false, fun _ => .int⟩,
   ⟨m.iRet, false, fun _ => .iRet⟩,
   ⟨m.endRun, false, fun _ => .endRun⟩]

/-- The rows of R84's table under a map. -/
def decodeRows (m : OpcodeMap) : List DecodeRow :=
  loadStoreRows m ++ inOutRows m ++ arithCopyRows m ++ controlRows m ++ indexStackRows m ++ systemRows m

/-- Decode of an opcode word: the whole word is compared with the values of the map (R85); none for an illegal word (R86). -/
def decodeOpcode (m : OpcodeMap) (w : Int) : Option DecodeRow :=
  (decodeRows m).find? fun r => r.value == w

/-- Why a list of words is no instruction. -/
inductive DecodeReject where
  /-- There is no word to decode. -/
  | noWords
  /-- The word matches no instruction of the map (R86). -/
  | illegalOpcode (w : Int)
  /-- A format O opcode (R80) with no operand word after it. -/
  | operandMissing (w : Int)
  deriving DecidableEq, Repr

/-- Decode the instruction at the head of a list of words, and give the words left over (R80, R87). -/
def decode (m : OpcodeMap) : List Int → Except DecodeReject (Instr × List Int)
  | [] => .error .noWords
  | w :: rest =>
    match decodeOpcode m w with
    | none => .error (.illegalOpcode w)
    | some r =>
      if r.hasOperand then
        match rest with
        | [] => .error (.operandMissing w)
        | op :: rest' => .ok (r.build op, rest')
      else .ok (r.build 0, rest)

/-- The instruction whose bits are `w`, numbered as spec/opcode_table.json numbers them: the opcode word is bits 31..0, the
operand word bits 63..32, each read as a signed integer (R10); bits from `nbits` up are 0. The table numbers words of the
reference width, 32 bits. -/
def tableWords (nbits w : Nat) : List Int :=
  let bits := w % 2 ^ nbits
  [wrap 32 bits, wrap 32 (bits / 2 ^ 32 : Nat)]

/-- What the decoder reads, under the reference map, from the instruction whose bits are `w`; none where it refuses. -/
def decodeTableWord (nbits w : Nat) : Option Instr :=
  match decode OpcodeMap.reference (tableWords nbits w) with
  | .ok (i, _) => some i
  | .error _ => none

/-- The opcode word of an instruction (R84). -/
def opcodeOf (m : OpcodeMap) : Instr → Int
  | .loadImm _ => m.loadImm
  | .loadAddr _ => m.loadAddr
  | .loadInd _ => m.loadInd
  | .loadIdxX _ => m.loadIdxX
  | .loadIdxY _ => m.loadIdxY
  | .loadSpX => m.loadSpX
  | .store _ => m.store
  | .get => m.get
  | .put _ => m.put
  | .addX => m.addX
  | .addY => m.addY
  | .subX => m.subX
  | .subY => m.subY
  | .copyToX => m.copyToX
  | .copyFromX => m.copyFromX
  | .copyToY => m.copyToY
  | .copyFromY => m.copyFromY
  | .copyToSp => m.copyToSp
  | .copyFromSp => m.copyFromSp
  | .jump _ => m.jump
  | .jumpIfEqual _ => m.jumpIfEqual
  | .jumpIfNotEqual _ => m.jumpIfNotEqual
  | .call _ => m.call
  | .ret => m.ret
  | .incX => m.incX
  | .decX => m.decX
  | .push => m.push
  | .pop => m.pop
  | .int => m.int
  | .iRet => m.iRet
  | .endRun => m.endRun

/-- The operand words of an instruction: one for format O, none for format Z (R80). -/
def operandWords : Instr → List Int
  | .loadImm op => [op]
  | .loadAddr op => [op]
  | .loadInd op => [op]
  | .loadIdxX op => [op]
  | .loadIdxY op => [op]
  | .store op => [op]
  | .put op => [op]
  | .jump op => [op]
  | .jumpIfEqual op => [op]
  | .jumpIfNotEqual op => [op]
  | .call op => [op]
  | .loadSpX | .get | .addX | .addY | .subX | .subY | .copyToX | .copyFromX | .copyToY |
  .copyFromY | .copyToSp | .copyFromSp | .ret | .incX | .decX | .push | .pop | .int |
  .iRet | .endRun => []

/-- The words of an instruction, the opcode word first (R80). -/
def encode (m : OpcodeMap) (i : Instr) : List Int := opcodeOf m i :: operandWords i

end Sys2Proof
end

