-- ==== Sys2Proof/Machine/State.lean ====
section
/-! DEFINITION. The machine's state as plain data (10_state.md), the reasons a step can stop, the result of an access, and
the state after reset. -/

namespace Sys2Proof.Machine

/-- The two privilege levels (R30, R230). -/
inductive Mode where
  | user
  | kernel
  deriving DecidableEq, Repr

/-- The kind of an access, recorded in a fault (20_memory.md R53, R54; 60_exceptions.md R200). -/
inductive AccessKind where
  | fetch
  | operand
  | data
  | write
  deriving DecidableEq, Repr

/-- A request to the memory collaborator (R36, R42). -/
inductive Request where
  | read (a : Int)
  | write (a : Int) (v : Int)
  | terminate
  deriving DecidableEq, Repr

/-- An event of the output log (R34). -/
inductive OutEvent where
  | printInt (v : Int)
  | printChar (v : Int)
  | portError (sel : Int)
  deriving DecidableEq, Repr

/-- The run status (R33), each terminal outcome with the information R200 records; `pc0` is the address of the opcode word
of the instruction during which the outcome arose. -/
inductive RunStatus where
  | running
  | halted
  | protectionFault (a : Int) (kind : AccessKind) (pc0 : Int)
  | invalidOpcode (ir : Int) (pc0 : Int)
  | rangeFault (a : Int) (kind : AccessKind) (pc0 : Int)
  | kernelIntFault (pc0 : Int)
  | transportError (r : Request)
  deriving DecidableEq, Repr

/-- Which interrupt a dispatch serves (60_exceptions.md R210, R212). -/
inductive InterruptKind where
  | timer
  | software
  deriving DecidableEq, Repr

/-- The memory store (R35, R50): the words that differ from what an unlisted address reads as, by rising address. The
smallest addressable unit is the word (log entry 4). -/
structure Memory where
  cells : List (Nat × Int)
  deriving DecidableEq, Repr

/-- What an unlisted address reads as: 0, the reference content of a word the loader does not write (R40, decision D8;
log entry 5). -/
def Memory.unlisted : Int := 0

/-- The canonical form: addresses strictly rising, no entry equal to what an unlisted address reads as. -/
abbrev Memory.WF (m : Memory) : Prop :=
  m.cells.Pairwise (fun c d => c.1 < d.1) ∧ ∀ c ∈ m.cells, c.2 ≠ Memory.unlisted

/-- Every listed address lies below `n`: the store has `n` words (R50). -/
abbrev Memory.Below (m : Memory) (n : Nat) : Prop := ∀ c ∈ m.cells, c.1 < n

/-- The machine's state (10_state.md R20, R33 to R36). `cfg` holds the parameters of R8 (log entry 2); `draws` is the
MODEL's own counter of the words Get has drawn (log entry 10). -/
structure State where
  ac : Int
  x : Int
  y : Int
  sp : Int
  pc : Int
  ir : Int
  count : Int
  timerLimit : Int
  mode : Mode
  status : RunStatus
  out : List OutEvent
  mem : Memory
  trace : List Request
  draws : Nat
  cfg : Config
  deriving DecidableEq, Repr

/-- Why a step has no next state. -/
inductive Fault where
  /-- Raised by `step` on a state whose status is terminal: "no further step occurs" (R33, R91). Safe: the run is over. -/
  | runEnded (outcome : RunStatus)
  /-- Raised by a Read that is never answered, a STUCK state and no outcome of the run (R60, R270). Safe: the model stops
  where the machine waits for ever (log entry 13). -/
  | readUnanswered (a : Int)
  deriving DecidableEq, Repr

/-- Why the model gives no meaning. -/
inductive Refusal where
  /-- Raised by `exec` for an instruction without a meaning; no arm does. Safe. -/
  | notModelled (mnemonic : String)
  /-- Raised by `launch` on a configuration that breaks R9 or R84, or whose words do not fit WORD_BITS (log entry 26). Safe:
  the spec refuses it too, or has no such configuration. -/
  | configIllFormed
  /-- Raised by `launch` on timerLimit <= 0 (R28, R253). Safe: the spec refuses it too. -/
  | timerLimitNotPositive
  /-- Raised by `launch` on an input that is no word of WORD_BITS bits (R10, R253). Safe: the spec has no such input. -/
  | inputNotAWord
  /-- Raised by `launch` on an image that is not in canonical form or lists an address outside the memory. Safe. -/
  | imageIllFormed
  deriving DecidableEq, Repr

/-- The result of a part of an instruction: it answers a value and goes on; `raise` has ended the run (R201); or a Read
stays unanswered (R60). -/
inductive Access (α : Type) where
  | ok (v : α) (s : State)
  | ended (s : State)
  | stuck (f : Fault)
  deriving DecidableEq, Repr

/-- The state after reset in the reference launch (R40, R250). The spec states pc, sp, mode, count, status and the empty
logs. `ac`, `x`, `y` hold the reference value of the launch inputs (decision D6, log entry 7); `ir` is unspecified
(DESIGN CHOICE 0, log entry 8); `timerLimit` is a launch input without a default (DESIGN CHOICE 100, log entry 6); memory
is the image with nothing loaded (decision D8, log entry 5); `draws` is the model's own (DESIGN CHOICE 0, log entry 10). -/
def State.reset : State where
  ac := 0
  x := 0
  y := 0
  sp := 1000
  pc := 0
  ir := 0
  count := 0
  timerLimit := 100
  mode := .user
  status := .running
  out := []
  mem := ⟨[]⟩
  trace := []
  draws := 0
  cfg := Config.reference

end Sys2Proof.Machine
end

