-- ==== Sys2Proof/Machine/Operands.lean ====
section
/-! DEFINITION. Operand forms and effective addresses (30_encoding.md R82, 40_load_store.md R117), and the address of the opcode
word during the execute phase (R92). Int arithmetic (42_arith_copy.md R150) is the integers' with Config.wrap (R11). -/

namespace Sys2Proof.Machine

/-- The address of the opcode word of a format Z instruction in its execute phase, where pc = pc0 + 1 (R92). -/
def State.pc0Z (s : State) : Int := s.pc - 1

/-- The address of the opcode word of a format O instruction after its operand fetch, where pc = pc0 + 2 (R92). -/
def State.pc0O (s : State) : Int := s.pc - 2

/-- Direct: the address is the operand word (R117). -/
def addrDirect (op : Int) : Int := op

/-- Indexed by X: wrap(op + x) (R117). -/
def State.addrIdxX (s : State) (op : Int) : Int := s.cfg.wrap (op + s.x)

/-- Indexed by Y: wrap(op + y) (R117). -/
def State.addrIdxY (s : State) (op : Int) : Int := s.cfg.wrap (op + s.y)

/-- Stack-relative indexed: wrap(sp + x) (R117). -/
def State.addrSpX (s : State) : Int := s.cfg.wrap (s.sp + s.x)

/-- Stack, push side: wrap(sp - 1) (R117). -/
def State.addrPush (s : State) : Int := s.cfg.wrap (s.sp - 1)

/-- Stack, pop side: sp (R117). -/
def State.addrPop (s : State) : Int := s.sp

end Sys2Proof.Machine
end

