-- ==== Sys2Proof/Machine/Ops.lean ====
section
/-! DEFINITION. The named operations: memory, registers, the end of a run, requests, the checked accesses, fetching an
instruction, taking an interrupt and returning from one, the counting of steps and the timer check. -/

namespace Sys2Proof.Machine

/-- The value at an address in a list of cells. -/
def readCells : List (Nat × Int) → Nat → Int
  | [], _ => Memory.unlisted
  | c :: rest, a => if c.1 = a then c.2 else readCells rest a

/-- Write a cell, keeping the canonical form: writing what an unlisted address reads as removes the entry. -/
def writeCells (a : Nat) (v : Int) : List (Nat × Int) → List (Nat × Int)
  | [] => if v = Memory.unlisted then [] else [(a, v)]
  | c :: rest =>
    if a < c.1 then (if v = Memory.unlisted then c :: rest else (a, v) :: c :: rest)
    else if a = c.1 then (if v = Memory.unlisted then rest else (a, v) :: rest)
    else c :: writeCells a v rest

/-- `store[addr]` (20_memory.md R56). -/
def Memory.read (m : Memory) (a : Nat) : Int := readCells m.cells a

/-- `store[addr] := val` (R57). -/
def Memory.write (m : Memory) (a : Nat) (v : Int) : Memory := ⟨writeCells a v m.cells⟩

/-- Write consecutive words from an address up. -/
def Memory.writeWords (m : Memory) (a : Nat) : List Int → Memory
  | [] => m
  | v :: rest => (m.write a v).writeWords (a + 1) rest

/-- `ac <- v` (R12, R21). -/
def State.setAc (s : State) (v : Int) : State := { s with ac := v }

/-- `x <- v` (R12, R22). -/
def State.setX (s : State) (v : Int) : State := { s with x := v }

/-- `y <- v` (R12, R23). -/
def State.setY (s : State) (v : Int) : State := { s with y := v }

/-- `sp <- v` (R12, R24). -/
def State.setSp (s : State) (v : Int) : State := { s with sp := v }

/-- `pc <- v` (R12, R25). -/
def State.setPc (s : State) (v : Int) : State := { s with pc := v }

/-- `ir <- v` (R26). -/
def State.setIr (s : State) (v : Int) : State := { s with ir := v }

/-- `count <- v` (R27). -/
def State.setCount (s : State) (v : Int) : State := { s with count := v }

/-- `mode <- m` (R30). -/
def State.setMode (s : State) (m : Mode) : State := { s with mode := m }

/-- The store performs a Write (R57). -/
def State.setWord (s : State) (a : Int) (v : Int) : State := { s with mem := s.mem.write a.toNat v }

/-- A request enters the trace (R36). -/
def State.request (s : State) (r : Request) : State := { s with trace := s.trace ++ [r] }

/-- `Emit(e)`: append an event to the output log (R14, R34). -/
def State.emit (s : State) (e : OutEvent) : State := { s with out := s.out ++ [e] }

/-- The environment's draw is used up (R131). -/
def State.countDraw (s : State) : State := { s with draws := s.draws + 1 }

/-- The end of the run (R91, R201): the status becomes the outcome and the core sends Terminate once (R58). -/
def State.endRun (s : State) (o : RunStatus) : State :=
  { s with status := o, trace := s.trace ++ [.terminate] }

/-- `Draw(1, 100)`: the word the environment supplies, free in [1, 100] (R131; log entry 10). -/
def State.draw (s : State) : Int := (((Config.freeDraw s.draws).val + 1 : Nat) : Int)

/-- Do one part of an instruction and, if it goes on, the next. -/
def Access.bind {α β : Type} (r : Access α) (k : α → State → Access β) : Access β :=
  match r with
  | .ok v s => k v s
  | .ended s => .ended s
  | .stuck f => .stuck f

/-- The outcome of an instruction: a run that `raise` ended is a next state, whose status says so (log entry 3). -/
def Access.toOutcome {α : Type} (r : Access α) : Host.Outcome State Fault Refusal :=
  match r with
  | .ok _ s => .next s
  | .ended s => .next s
  | .stuck f => .fault f

/-- Whether the next request fails: a free value, and only where TRANSPORT_FALLIBLE (R61; log entry 12). -/
def State.requestFails (s : State) : Bool :=
  s.cfg.transportFallible && Config.freeRequestFails s.trace.length

/-- Whether the next request, a Read, is never answered (R60; log entry 13). -/
def State.readHangs (s : State) : Bool :=
  s.cfg.transportMayHang && Config.freeReadHangs s.trace.length

/-- `MemRead(a, 1)`: one request Read(a) and its answer (R13, R56, R60, R61). It checks nothing. -/
def State.memRead (s : State) (a : Int) : Access Int :=
  if s.requestFails then .ended ((s.request (.read a)).endRun (.transportError (.read a)))
  else if s.readHangs then .stuck (.readUnanswered a)
  else .ok (s.mem.read a.toNat) (s.request (.read a))

/-- `MemWrite(a, 1, v)`: one request Write(a, v), with no reply (R13, R57, R60, R61). It checks nothing. -/
def State.memWrite (s : State) (a : Int) (v : Int) : Access Unit :=
  if s.requestFails then .ended ((s.request (.write a v)).endRun (.transportError (.write a v)))
  else .ok () ((s.request (.write a v)).setWord a v)

/-- The protection predicate, a signed comparison, in the mode of this moment (R52). -/
def State.violates (s : State) (a : Int) : Bool :=
  s.mode == .user && decide ((s.cfg.userLimit : Int) ≤ a)

/-- An address outside [0, MEM_WORDS) (R55). -/
def State.outOfRange (s : State) (a : Int) : Bool :=
  decide (a < 0) || decide ((s.cfg.memWords : Int) ≤ a)

/-- `Load(a, kind)`: the checked read (R53). -/
def State.load (s : State) (pc0 : Int) (kind : AccessKind) (a : Int) : Access Int :=
  if s.violates a then .ended (s.endRun (.protectionFault a kind pc0))
  else if s.outOfRange a then .ended (s.endRun (.rangeFault a kind pc0))
  else s.memRead a

/-- `Store(a, v)`: the checked write (R54). -/
def State.store (s : State) (pc0 : Int) (a : Int) (v : Int) : Access Unit :=
  if s.violates a then .ended (s.endRun (.protectionFault a .write pc0))
  else if s.outOfRange a then .ended (s.endRun (.rangeFault a .write pc0))
  else s.memWrite a v

/-- `FetchWord(kind)`: the checked read at pc, then pc + 1; a fetch that faults does not advance pc (30_encoding.md R81). -/
def State.fetchWord (s : State) (pc0 : Int) (kind : AccessKind) : Access Int :=
  (s.load pc0 kind s.pc).bind fun v t => .ok v (t.setPc (t.cfg.wrap (t.pc + 1)))

/-- The step's count of an instruction that starts in User mode, made before the fetch (R90 part 1, R27). -/
def State.countStep (s : State) : State :=
  if s.mode = .user then s.setCount (s.cfg.wrap (s.count + 1)) else s

/-- Decode the word in ir and, for a format O row, fetch the operand word (R87, R90 part 3): an illegal opcode raises
InvalidOpcode (45_system.md R193) before any operand fetch. -/
def State.decodeIr (s : State) (pc0 : Int) : Access Instr :=
  match decodeOpcode s.cfg.opcodeMap s.ir with
  | none => .ended (s.endRun (.invalidOpcode s.ir pc0))
  | some r =>
    if r.hasOperand then (s.fetchWord pc0 .operand).bind fun op t => .ok (r.build op) t
    else .ok (r.build 0) s

/-- The instruction at pc: `ir <- FetchWord(Fetch)` (R90 part 2), then its decode. -/
def State.fetchInstr (s : State) (pc0 : Int) : Access Instr :=
  (s.fetchWord pc0 .fetch).bind fun w t => (t.setIr w).decodeIr pc0

/-- The handler's entry (60_exceptions.md R211, R212 part 7). -/
def State.handlerBase (s : State) : InterruptKind → Int
  | .timer => s.cfg.timerBase
  | .software => s.cfg.swiBase

/-- The pc of the interrupted program is written and the handler entered (R212 parts 5 to 7): the second half of a dispatch. -/
def State.enterHandler (s : State) (pc0 : Int) (kind : InterruptKind) : Access Unit :=
  ((s.setSp s.addrPush).store pc0 s.addrPush s.pc).bind fun _ t => .ok () (t.setPc (t.handlerBase kind))

/-- `InterruptDispatch(kind)`, shared by the timer and the software interrupt (R212). -/
def State.interruptDispatch (s : State) (pc0 : Int) (kind : InterruptKind) : Access Unit :=
  let counted := if kind = .timer then s.setCount 0 else s
  let k := (counted.setMode .kernel).setSp (s.cfg.wrap (s.cfg.kstackTop - 1))
  (k.store pc0 k.sp s.sp).bind fun _ t => t.enterHandler pc0 kind

/-- The return from an interrupt (45_system.md R191): pop pc, then read sp, then User mode. Both reads are checked in the
mode the return started in. -/
def State.interruptReturn (s : State) (pc0 : Int) : Access Unit :=
  (s.load pc0 .data s.addrPop).bind fun t u =>
    let v := (u.setSp (u.cfg.wrap (u.sp + 1))).setPc t
    (v.load pc0 .data v.addrPop).bind fun saved w => .ok () ((w.setSp saved).setMode .user)

/-- Whether the timer interrupt is taken at the end of a step (R90 part 4, R221). -/
def State.timerFires (s : State) : Bool :=
  s.status == .running && s.mode == .user && s.count == s.timerLimit

/-- The timer check of a step, and the dispatch it may trigger (R90 part 4, R213). -/
def State.timerCheck (s : State) (pc0 : Int) : Host.Outcome State Fault Refusal :=
  if s.timerFires then (s.interruptDispatch pc0 .timer).toOutcome else .next s

/-- A push (10_state.md R24): sp is decremented first, then the word is written at the new sp. -/
def State.pushWord (s : State) (pc0 : Int) (v : Int) : Access Unit :=
  (s.setSp s.addrPush).store pc0 s.addrPush v

/-- A pop (R24): the word at sp is read, then sp is incremented. -/
def State.popWord (s : State) (pc0 : Int) : Access Int :=
  (s.load pc0 .data s.addrPop).bind fun v t => .ok v (t.setSp (t.cfg.wrap (t.sp + 1)))

/-- A checked data read into ac, the last part of every load (R117). -/
def State.loadAc (s : State) (pc0 : Int) (a : Int) : Access Unit :=
  (s.load pc0 .data a).bind fun v t => .ok () (t.setAc v)

end Sys2Proof.Machine
end

