-- ==== Sys2Proof/Machine/ArithCopy.lean ====
section
/-! DEFINITION. Arithmetic and register copies (42_arith_copy.md). None can fault in its execute phase. -/

namespace Sys2Proof.Machine

/-- AddX (R140). -/
def execAddX (s : State) : Host.Outcome State Fault Refusal := .next (s.setAc (s.cfg.wrap (s.ac + s.x)))

/-- AddY (R141). -/
def execAddY (s : State) : Host.Outcome State Fault Refusal := .next (s.setAc (s.cfg.wrap (s.ac + s.y)))

/-- SubX (R142). -/
def execSubX (s : State) : Host.Outcome State Fault Refusal := .next (s.setAc (s.cfg.wrap (s.ac - s.x)))

/-- SubY (R143). -/
def execSubY (s : State) : Host.Outcome State Fault Refusal := .next (s.setAc (s.cfg.wrap (s.ac - s.y)))

/-- CopyToX (R144). -/
def execCopyToX (s : State) : Host.Outcome State Fault Refusal := .next (s.setX s.ac)

/-- CopyFromX (R145). -/
def execCopyFromX (s : State) : Host.Outcome State Fault Refusal := .next (s.setAc s.x)

/-- CopyToY (R146). -/
def execCopyToY (s : State) : Host.Outcome State Fault Refusal := .next (s.setY s.ac)

/-- CopyFromY (R147). -/
def execCopyFromY (s : State) : Host.Outcome State Fault Refusal := .next (s.setAc s.y)

/-- CopyToSp (R148): nothing is checked until a stack access uses sp (R39). -/
def execCopyToSp (s : State) : Host.Outcome State Fault Refusal := .next (s.setSp s.ac)

/-- CopyFromSp (R149). -/
def execCopyFromSp (s : State) : Host.Outcome State Fault Refusal := .next (s.setAc s.sp)

end Sys2Proof.Machine
end

