-- ==== Sys2Proof/Machine/Flags.lean ====
section
/-! DEFINITION. The core has no flags, condition codes or predicate registers (10_state.md R29): what other machines take
from a flag is here a test of a register or of an operand. -/

namespace Sys2Proof.Machine

/-- The test of the two conditional jumps: ac == 0 (R29, 43_control.md R161, R162). -/
def State.acIsZero (s : State) : Bool := s.ac == 0

/-- The event Put emits for a port selector (41_io.md R132). -/
def portEvent (sel : Int) (v : Int) : OutEvent :=
  if sel = 1 then .printInt v else if sel = 2 then .printChar v else .portError sel

end Sys2Proof.Machine
end

