-- ==== Sys2Proof/Machine/Control.lean ====
section
/-! DEFINITION. Control transfer (43_control.md): absolute targets, no delay slots (R165). Writing a word to pc is never a
fault in itself. -/

namespace Sys2Proof.Machine

/-- Jump (R160). -/
def execJump (op : Int) (s : State) : Host.Outcome State Fault Refusal := .next (s.setPc op)

/-- JumpIfEqual (R161): taken iff ac = 0; else pc stays past the operand. -/
def execJumpIfEqual (op : Int) (s : State) : Host.Outcome State Fault Refusal :=
  .next (if s.acIsZero then s.setPc op else s)

/-- JumpIfNotEqual (R162): taken iff ac is not 0. -/
def execJumpIfNotEqual (op : Int) (s : State) : Host.Outcome State Fault Refusal :=
  .next (if s.acIsZero then s else s.setPc op)

/-- Call (R163): push the address past the operand, then jump. -/
def execCall (op : Int) (s : State) : Host.Outcome State Fault Refusal :=
  ((s.pushWord s.pc0O s.pc).bind fun _ t => .ok () (t.setPc op)).toOutcome

/-- Ret (R164): pop pc. -/
def execRet (s : State) : Host.Outcome State Fault Refusal :=
  ((s.popWord s.pc0Z).bind fun v t => .ok () (t.setPc v)).toOutcome

end Sys2Proof.Machine
end

