-- ==== Sys2Proof/Machine/InOut.lean ====
section
/-! DEFINITION. Random number and output port (41_io.md). -/

namespace Sys2Proof.Machine

/-- Get (R130): ac takes the environment's draw. -/
def execGet (s : State) : Host.Outcome State Fault Refusal := .next ((s.setAc s.draw).countDraw)

/-- Put (R132): one event; a bad selector is reported and is no fault (R205). -/
def execPut (op : Int) (s : State) : Host.Outcome State Fault Refusal := .next (s.emit (portEvent op s.ac))

end Sys2Proof.Machine
end

