-- ==== Sys2Proof/Machine/IndexStack.lean ====
section
/-! DEFINITION. Index increment and the data stack (44_index_stack.md). -/

namespace Sys2Proof.Machine

/-- IncX (R180). -/
def execIncX (s : State) : Host.Outcome State Fault Refusal := .next (s.setX (s.cfg.wrap (s.x + 1)))

/-- DecX (R181). -/
def execDecX (s : State) : Host.Outcome State Fault Refusal := .next (s.setX (s.cfg.wrap (s.x - 1)))

/-- Push (R182): sp stays decremented if the store faults (R201, decision D13). -/
def execPush (s : State) : Host.Outcome State Fault Refusal := (s.pushWord s.pc0Z s.ac).toOutcome

/-- Pop (R183): the popped word keeps its value in memory. -/
def execPop (s : State) : Host.Outcome State Fault Refusal :=
  ((s.popWord s.pc0Z).bind fun v t => .ok () (t.setAc v)).toOutcome

end Sys2Proof.Machine
end

