-- ==== Sys2Proof/Machine/LoadStore.lean ====
section
/-! DEFINITION. Loads and the store (40_load_store.md). Each meaning is the execute phase after the operand fetch. -/

namespace Sys2Proof.Machine

/-- LoadImm (R110). -/
def execLoadImm (op : Int) (s : State) : Host.Outcome State Fault Refusal := .next (s.setAc op)

/-- LoadAddr (R111). -/
def execLoadAddr (op : Int) (s : State) : Host.Outcome State Fault Refusal :=
  (s.loadAc s.pc0O (addrDirect op)).toOutcome

/-- LoadInd (R112): both reads are checked separately. -/
def execLoadInd (op : Int) (s : State) : Host.Outcome State Fault Refusal :=
  ((s.load s.pc0O .data (addrDirect op)).bind fun p t => t.loadAc s.pc0O p).toOutcome

/-- LoadIdxX (R113). -/
def execLoadIdxX (op : Int) (s : State) : Host.Outcome State Fault Refusal :=
  (s.loadAc s.pc0O (s.addrIdxX op)).toOutcome

/-- LoadIdxY (R114). -/
def execLoadIdxY (op : Int) (s : State) : Host.Outcome State Fault Refusal :=
  (s.loadAc s.pc0O (s.addrIdxY op)).toOutcome

/-- LoadSpX (R115). -/
def execLoadSpX (s : State) : Host.Outcome State Fault Refusal := (s.loadAc s.pc0Z s.addrSpX).toOutcome

/-- Store (R116). -/
def execStore (op : Int) (s : State) : Host.Outcome State Fault Refusal :=
  (s.store s.pc0O (addrDirect op) s.ac).toOutcome

end Sys2Proof.Machine
end

