-- ==== Sys2Proof/Machine/System.lean ====
section
/-! DEFINITION. Software interrupt, interrupt return and halt (45_system.md). No instruction is privileged (R194). -/

namespace Sys2Proof.Machine

/-- What Int does in Kernel mode: the three choices of KINT_ACTION (R190, decision D5; log entry 11). -/
def State.kernelInt (s : State) (pc0 : Int) : KIntAction → State
  | .halt => s.endRun .halted
  | .nop => s
  | .fault => s.endRun (.kernelIntFault pc0)

/-- Int (R190): in User mode the software interrupt is dispatched; in Kernel mode KINT_ACTION decides. -/
def execInt (s : State) : Host.Outcome State Fault Refusal :=
  match s.mode with
  | .user => (s.interruptDispatch s.pc0Z .software).toOutcome
  | .kernel => .next (s.kernelInt s.pc0Z s.cfg.kintAction)

/-- IRet (R191), in either mode (decision D20; log entry 19). -/
def execIRet (s : State) : Host.Outcome State Fault Refusal := (s.interruptReturn s.pc0Z).toOutcome

/-- End (R192): the run ends Halted; every register keeps its value. -/
def execEndRun (s : State) : Host.Outcome State Fault Refusal := .next (s.endRun .halted)

end Sys2Proof.Machine
end

