-- ==== Sys2Proof/Machine/Dispatch.lean ====
section
/-! DEFINITION. The execute phase of each instruction (30_encoding.md R90 part 3): one arm per constructor of Instr. -/

namespace Sys2Proof.Machine

def exec (i : Instr) (s : State) : Host.Outcome State Fault Refusal :=
  match i with
  | .loadImm op => Sys2Proof.Machine.execLoadImm op s
  | .loadAddr op => Sys2Proof.Machine.execLoadAddr op s
  | .loadInd op => Sys2Proof.Machine.execLoadInd op s
  | .loadIdxX op => Sys2Proof.Machine.execLoadIdxX op s
  | .loadIdxY op => Sys2Proof.Machine.execLoadIdxY op s
  | .loadSpX => Sys2Proof.Machine.execLoadSpX s
  | .store op => Sys2Proof.Machine.execStore op s
  | .get => Sys2Proof.Machine.execGet s
  | .put op => Sys2Proof.Machine.execPut op s
  | .addX => Sys2Proof.Machine.execAddX s
  | .addY => Sys2Proof.Machine.execAddY s
  | .subX => Sys2Proof.Machine.execSubX s
  | .subY => Sys2Proof.Machine.execSubY s
  | .copyToX => Sys2Proof.Machine.execCopyToX s
  | .copyFromX => Sys2Proof.Machine.execCopyFromX s
  | .copyToY => Sys2Proof.Machine.execCopyToY s
  | .copyFromY => Sys2Proof.Machine.execCopyFromY s
  | .copyToSp => Sys2Proof.Machine.execCopyToSp s
  | .copyFromSp => Sys2Proof.Machine.execCopyFromSp s
  | .jump op => Sys2Proof.Machine.execJump op s
  | .jumpIfEqual op => Sys2Proof.Machine.execJumpIfEqual op s
  | .jumpIfNotEqual op => Sys2Proof.Machine.execJumpIfNotEqual op s
  | .call op => Sys2Proof.Machine.execCall op s
  | .ret => Sys2Proof.Machine.execRet s
  | .incX => Sys2Proof.Machine.execIncX s
  | .decX => Sys2Proof.Machine.execDecX s
  | .push => Sys2Proof.Machine.execPush s
  | .pop => Sys2Proof.Machine.execPop s
  | .int => Sys2Proof.Machine.execInt s
  | .iRet => Sys2Proof.Machine.execIRet s
  | .endRun => Sys2Proof.Machine.execEndRun s

end Sys2Proof.Machine
end

