-- ==== Sys2Proof/Machine/Step.lean ====
section
/-! DEFINITION. One step of the machine (30_encoding.md R90), and the placing of an instruction where it is fetched. -/

namespace Sys2Proof.Machine

/-- The step of a running machine (R90): count, fetch and decode, execute, timer check. -/
def State.stepRunning (s : State) : Host.Outcome State Fault Refusal :=
  match s.countStep.fetchInstr s.pc with
  | .ok i t =>
    match exec i t with
    | .next u => u.timerCheck s.pc
    | .fault f => .fault f
    | .refused r => .refused r
  | .ended t => .next t
  | .stuck f => .fault f

/-- `Step()`: executed while the run status is Running (R90); a terminal status has no further step (R33, R91). -/
def step (s : State) : Host.Outcome State Fault Refusal :=
  if s.status = .running then s.stepRunning else .fault (.runEnded s.status)

/-- The state with an instruction's words, numbered as spec/opcode_table.json numbers their bits, stored at pc, where the
next step fetches (R255: memory is pre-populated by the loader; log entry 16). -/
def State.withFetchWord (s : State) (nbits w : Nat) : State :=
  { s with mem := s.mem.writeWords s.pc.toNat (tableWords nbits w) }

end Sys2Proof.Machine
end

