-- ==== Sys2Proof/Machine/Launch.lean ====
section
/-! DEFINITION. The start of a run: the launch inputs and premises (70_reset_and_hazards.md R252, R253, R256) and the
loader's placing of words (30_encoding.md R95). -/

namespace Sys2Proof.Machine

/-- What is sampled at reset beside the configuration (10_state.md R40, R42): timerLimit, INIT_AC, INIT_X, INIT_Y, MEM0, and
the unspecified ir (R26), here any word. -/
structure LaunchInputs where
  timerLimit : Int
  initAc : Int
  initX : Int
  initY : Int
  ir : Int
  image : Memory
  deriving DecidableEq, Repr

/-- The state at the start of a run (R40). -/
def launchState (c : Config) (l : LaunchInputs) : State where
  ac := l.initAc
  x := l.initX
  y := l.initY
  sp := c.userSp0
  pc := 0
  ir := l.ir
  count := 0
  timerLimit := l.timerLimit
  mode := .user
  status := .running
  out := []
  mem := l.image
  trace := []
  draws := 0
  cfg := c

/-- Every launch input is a word of WORD_BITS bits (R10, R253). -/
abbrev LaunchInputs.Words (c : Config) (l : LaunchInputs) : Prop :=
  c.IsWord l.timerLimit ∧ c.IsWord l.initAc ∧ c.IsWord l.initX ∧ c.IsWord l.initY ∧ c.IsWord l.ir ∧
    ∀ p ∈ l.image.cells, c.IsWord p.2

/-- A launch: refused on a configuration that breaks R9 or R84, on timerLimit <= 0 (R28, R253), on an input that is no word,
and on an image that is no memory of MEM_WORDS words in the model's canonical form (log entry 24). -/
def launch (c : Config) (l : LaunchInputs) : Host.Outcome State Fault Refusal :=
  if ¬ c.WF then .refused .configIllFormed
  else if l.timerLimit ≤ 0 then .refused .timerLimitNotPositive
  else if ¬ l.Words c then .refused .inputNotAWord
  else if ¬ (l.image.WF ∧ l.image.Below c.memWords) then .refused .imageIllFormed
  else .next (launchState c l)

/-- A line of the load format, already read as a number (R95): a word for the current offset, or a new offset. -/
inductive LoadLine where
  | word (v : Int)
  | offset (n : Int)
  deriving DecidableEq, Repr

/-- Place the lines from an offset on (R95). The spec gives no meaning to a word outside the memory: none
(DESIGN CHOICE, log entry 20). -/
def loadLines (memWords : Nat) : List LoadLine → Int → Memory → Option Memory
  | [], _, m => some m
  | .offset n :: rest, _, m => loadLines memWords rest n m
  | .word v :: rest, off, m =>
    if 0 ≤ off ∧ off < (memWords : Int) then loadLines memWords rest (off + 1) (m.write off.toNat v) else none

/-- The image the loader makes of a load file's lines: from offset 0 on, into a store of zeros (R95, decision D8). -/
def loadImage (c : Config) (lines : List LoadLine) : Option Memory := loadLines c.memWords lines 0 ⟨[]⟩

end Sys2Proof.Machine
end

