-- ==== Sys2Proof/Machine/Render.lean ====
section
/-! DEFINITION. The reference rendering of output events (41_io.md R133) and the numeric outcome codes
(60_exceptions.md R200). No core rule depends on either. -/

namespace Sys2Proof.Machine

/-- The decimal digits of a number, at most `fuel` of them. -/
def decimalDigits : Nat → Nat → List Char
  | 0, _ => []
  | fuel + 1, n =>
    if n < 10 then [Char.ofNat (48 + n)] else decimalDigits fuel (n / 10) ++ [Char.ofNat (48 + n % 10)]

/-- A word in decimal, with a leading minus sign if negative (R133). -/
def renderInt (v : Int) : List Char :=
  if v < 0 then '-' :: decimalDigits (v.natAbs + 1) v.natAbs else decimalDigits (v.natAbs + 1) v.natAbs

/-- What an event puts on the screen: no separator, no newline; a port error puts nothing there (R133). -/
def OutEvent.screen : OutEvent → List Char
  | .printInt v => renderInt v
  | .printChar v => [Char.ofNat (v % 256).toNat]
  | .portError _ => []

/-- What an event reports on the host's error channel: the bad selector (R133). -/
def OutEvent.diagnostic : OutEvent → Option Int
  | .portError sel => some sel
  | .printInt _ => none
  | .printChar _ => none

/-- The screen after a run: the rendering of its output log. -/
def renderLog (out : List OutEvent) : List Char := (out.map OutEvent.screen).flatten

/-- The numeric code of a terminal outcome (R200, decision D12; log entry 25). -/
def RunStatus.code : RunStatus → Option Nat
  | .running => none
  | .halted => some 0
  | .protectionFault _ _ _ => some 1
  | .invalidOpcode _ _ => some 2
  | .rangeFault _ _ _ => some 3
  | .kernelIntFault _ => some 4
  | .transportError _ => some 5

end Sys2Proof.Machine
end

