-- ==== Sys2Proof/Machine/Run.lean ====
section
/-! DEFINITION. The run under fuel (30_encoding.md R91, 70_reset_and_hazards.md R271). -/

namespace Sys2Proof.Machine

/-- `run()` under fuel: `Step()` is repeated until the status is terminal (R91), at most `fuel` times. A run need not
terminate (R271): a state that is still Running when the fuel is used up is no end of the run. -/
def run : Nat → State → Host.Outcome State Fault Refusal
  | 0, s => .next s
  | fuel + 1, s =>
    if s.status = .running then
      match step s with
      | .next t => run fuel t
      | .fault f => .fault f
      | .refused r => .refused r
    else .next s

end Sys2Proof.Machine
end

