-- ==== Sys2Proof/Machine/Wire.lean ====
section
/-! DEFINITION. The wire form of a request and of its response on a byte-oriented memory channel (20_memory.md R62). No core
rule uses it. -/

namespace Sys2Proof.Machine

/-- An integer as WIRE_INT_BYTES bytes, least significant first, sign-extended or cut to that width (R62, decision D17;
DESIGN CHOICE, log entry 14). -/
def wireBytesLittle (n : Nat) (v : Int) : List (BitVec 8) :=
  (List.range n).map fun k => BitVec.ofInt 8 (v / 256 ^ k)

/-- An integer on the wire, in the order WIRE_ENDIAN says (R62). -/
def wireInt (c : Config) (v : Int) : List (BitVec 8) :=
  match c.wireEndian with
  | .little => wireBytesLittle c.wireIntBytes v
  | .big => (wireBytesLittle c.wireIntBytes v).reverse

/-- A request on the wire: the tag byte 'r', 'w' or 'E', then the address, then the value (R62). -/
def Request.wireBytes (c : Config) : Request → List (BitVec 8)
  | .read a => 0x72#8 :: wireInt c a
  | .write a v => 0x77#8 :: (wireInt c a ++ wireInt c v)
  | .terminate => [0x45#8]

/-- The response to a Read on the wire: one value-sized integer; a Write and a Terminate have none (R57, R62). -/
def Request.responseBytes (c : Config) (v : Int) : Request → List (BitVec 8)
  | .read _ => wireInt c v
  | .write _ _ => []
  | .terminate => []

end Sys2Proof.Machine
end

