-- ==== Sys2Proof/Safety.lean ====
section
/-! DEFINITION. The terms claims are stated in: the premises on a state, the tables of the spec written out again (which
registers an instruction writes, R37; which requests it issues, R74), the invariant of the machine, and isolation. -/

namespace Sys2Proof.Machine

/-- Every request completes and every Read is answered: TRANSPORT_FALLIBLE = false, and no Read hangs (R60, R61). -/
abbrev State.Reliable (s : State) : Prop := s.cfg.transportFallible = false ∧ s.cfg.transportMayHang = false

/-- The outcome an access raises, in the order of the checks: protection, then range (R52 to R55); none if it is sent. -/
def State.accessFault (s : State) (pc0 : Int) (kind : AccessKind) (a : Int) : Option RunStatus :=
  if s.mode = .user ∧ (s.cfg.userLimit : Int) ≤ a then some (.protectionFault a kind pc0)
  else if a < 0 ∨ (s.cfg.memWords : Int) ≤ a then some (.rangeFault a kind pc0)
  else none

/-- The run has ended with an outcome, and Terminate was sent; nothing else changed (R201, R58). -/
def State.endedWith (s : State) (o : RunStatus) : State :=
  { s with status := o, trace := s.trace ++ [.terminate] }

/-- The operand fetch of an instruction in a state whose ir holds its opcode word and whose pc stands at the operand word:
it faults as R110 says (ProtectionFault or RangeFault of kind Operand, pc not advanced), and else it reads the word, moves
pc past it and the instruction read is the one with that operand (R81, R87). -/
def OperandFetchAsStated (build : Int → Instr) : Prop :=
  ∀ (s : State) (pc0 : Int), s.cfg.opcodeMap.Distinct → s.ir = opcodeOf s.cfg.opcodeMap (build 0) →
    (∀ o, s.accessFault pc0 .operand s.pc = some o → s.decodeIr pc0 = .ended (s.endedWith o)) ∧
    (s.accessFault pc0 .operand s.pc = none → s.Reliable →
      s.decodeIr pc0 = .ok (build (s.mem.read s.pc.toNat))
        { s with pc := s.cfg.wrap (s.pc + 1), trace := s.trace ++ [.read s.pc] })

/-- The registers of R37's table. -/
inductive Reg where
  | ac
  | x
  | y
  | sp
  | pc
  | mode
  deriving DecidableEq, Repr

/-- The registers an instruction writes in its execute phase: the W entries of R37's table. The table has no row for Int in
Kernel mode, which writes none. -/
def regsWritten : Instr → List Reg
  | .loadImm _ | .loadAddr _ | .loadInd _ | .get => [.ac]
  | .loadIdxX _ | .loadIdxY _ | .loadSpX => [.ac]
  | .store _ | .put _ => []
  | .addX | .subX | .addY | .subY => [.ac]
  | .copyToX => [.x]
  | .copyFromX | .copyFromY | .copyFromSp => [.ac]
  | .copyToY => [.y]
  | .copyToSp => [.sp]
  | .jump _ | .jumpIfEqual _ | .jumpIfNotEqual _ => [.pc]
  | .call _ | .ret => [.sp, .pc]
  | .incX | .decX => [.x]
  | .push => [.sp]
  | .pop => [.ac, .sp]
  | .int | .iRet => [.sp, .pc, .mode]
  | .endRun => []

/-- The registers an instruction reads in its execute phase: the R entries of R37's table. -/
def regsRead : Instr → List Reg
  | .loadImm _ | .loadAddr _ | .loadInd _ | .get => []
  | .loadIdxX _ => [.x]
  | .loadIdxY _ => [.y]
  | .loadSpX => [.x, .sp]
  | .store _ | .put _ => [.ac]
  | .addX | .subX => [.ac, .x]
  | .addY | .subY => [.ac, .y]
  | .copyToX | .copyToY | .copyToSp => [.ac]
  | .copyFromX => [.x]
  | .copyFromY => [.y]
  | .copyFromSp => [.sp]
  | .jump _ => []
  | .jumpIfEqual _ | .jumpIfNotEqual _ => [.ac]
  | .call _ => [.sp, .pc]
  | .ret => [.sp]
  | .incX | .decX => [.x]
  | .push => [.ac, .sp]
  | .pop => [.sp]
  | .int => [.sp, .pc]
  | .iRet => [.sp]
  | .endRun => []

/-- The word addresses an instruction stores to in its execute phase: the Write entries of R74's table. -/
def storesTo (s : State) : Instr → List Nat
  | .store op => [(addrDirect op).toNat]
  | .call _ | .push => [s.addrPush.toNat]
  | .int =>
    match s.mode with
    | .user => [(s.cfg.wrap (s.cfg.kstackTop - 1)).toNat, (s.cfg.wrap (s.cfg.kstackTop - 2)).toNat]
    | .kernel => []
  | .loadImm _ | .loadAddr _ | .loadInd _ | .loadIdxX _ | .loadIdxY _ | .loadSpX => []
  | .get | .put _ | .addX | .addY | .subX | .subY => []
  | .copyToX | .copyFromX | .copyToY | .copyFromY | .copyToSp | .copyFromSp => []
  | .jump _ | .jumpIfEqual _ | .jumpIfNotEqual _ | .ret | .incX | .decX | .pop | .iRet | .endRun => []

/-- The requests of an interrupt dispatch: the interrupted sp, then the interrupted pc (R74, R212). -/
def dispatchRequests (s : State) : List Request :=
  [.write (s.cfg.wrap (s.cfg.kstackTop - 1)) s.sp, .write (s.cfg.wrap (s.cfg.kstackTop - 2)) s.pc]

/-- The requests of the fetch of an instruction: its opcode word, and its operand word if it has one (R74, R87). -/
def fetchRequests (s : State) (i : Instr) : List Request :=
  if i.hasOperand then [.read s.pc, .read (s.cfg.wrap (s.pc + 1))] else [.read s.pc]

/-- The requests an instruction issues in its execute phase, when no access faults: R74's table without the `Read(pc0+1)` of
its operand fetch, which comes before (log entry 9). The `Terminate` of End is not among them. -/
def requestsOf (s : State) : Instr → List Request
  | .loadImm _ => []
  | .loadAddr op => [.read op]
  | .loadInd op => [.read op, .read (s.mem.read op.toNat)]
  | .loadIdxX op => [.read (s.cfg.wrap (op + s.x))]
  | .loadIdxY op => [.read (s.cfg.wrap (op + s.y))]
  | .loadSpX => [.read (s.cfg.wrap (s.sp + s.x))]
  | .store op => [.write op s.ac]
  | .get | .put _ => []
  | .addX | .addY | .subX | .subY => []
  | .copyToX | .copyFromX | .copyToY | .copyFromY | .copyToSp | .copyFromSp => []
  | .jump _ | .jumpIfEqual _ | .jumpIfNotEqual _ => []
  | .call _ => [.write (s.cfg.wrap (s.sp - 1)) s.pc]
  | .ret | .pop => [.read s.sp]
  | .incX | .decX => []
  | .push => [.write (s.cfg.wrap (s.sp - 1)) s.ac]
  | .int =>
    match s.mode with
    | .user => dispatchRequests s
    | .kernel => []
  | .iRet => [.read s.sp, .read (s.cfg.wrap (s.sp + 1))]
  | .endRun => []

/-- What a list of requests does to the store: each Write in turn (R57, R68). -/
def replay : Memory → List Request → Memory
  | m, [] => m
  | m, .write a v :: rest => replay (m.write a.toNat v) rest
  | m, .read _ :: rest => replay m rest
  | m, .terminate :: rest => replay m rest

/-- The address of a request lies in [0, n) (R59). -/
def Request.InRange (n : Nat) : Request → Prop
  | .read a => 0 ≤ a ∧ a < (n : Int)
  | .write a _ => 0 ≤ a ∧ a < (n : Int)
  | .terminate => True

/-- Terminate is sent exactly once, as the last request, when the run has ended, and not before (R58, R91). -/
def TerminateOnlyLast (s : State) : Prop :=
  if s.status = .running then Request.terminate ∉ s.trace
  else ∃ before, s.trace = before ++ [.terminate] ∧ Request.terminate ∉ before

/-- The invariant of the machine. -/
structure State.Inv (s : State) : Prop where
  /-- The configuration is well formed (R9, R84). -/
  cfgWF : s.cfg.WF
  /-- Memory is in canonical form. -/
  memWF : s.mem.WF
  /-- Memory lists only addresses of the store (R50). -/
  memBelow : s.mem.Below s.cfg.memWords
  /-- Every general register, sp, pc, ir and timerLimit holds a word (R20, R37). -/
  regsFit : s.cfg.IsWord s.ac ∧ s.cfg.IsWord s.x ∧ s.cfg.IsWord s.y ∧ s.cfg.IsWord s.sp ∧ s.cfg.IsWord s.pc ∧
    s.cfg.IsWord s.ir ∧ s.cfg.IsWord s.timerLimit
  /-- Memory holds words (R50). -/
  memFits : ∀ p ∈ s.mem.cells, s.cfg.IsWord p.2
  /-- timerLimit is positive (R28). -/
  limitPos : 1 ≤ s.timerLimit
  /-- 0 <= count <= timerLimit (R41). -/
  countBounds : 0 ≤ s.count ∧ s.count ≤ s.timerLimit
  /-- Between steps of a running User-mode program the limit is not reached: the timer would have fired (R221). -/
  countBelow : s.status = .running → s.mode = .user → s.count < s.timerLimit
  /-- No request of the trace is out of range (R59). -/
  traceInRange : ∀ r ∈ s.trace, r.InRange s.cfg.memWords
  /-- Terminate stands only at the end of an ended run's trace (R58). -/
  terminateLast : TerminateOnlyLast s

/-- Two stores hold the same words below `n`. -/
def Memory.AgreeBelow (n : Nat) (m m' : Memory) : Prop := ∀ a, a < n → m.read a = m'.read a

/-- Two outcomes differ in nothing but words of memory from `n` up. -/
def SameBelow (n : Nat) : Host.Outcome State Fault Refusal → Host.Outcome State Fault Refusal → Prop
  | .next t, .next t' => t' = { t with mem := t'.mem } ∧ t.mem.AgreeBelow n t'.mem
  | .fault f, .fault f' => f = f'
  | .refused r, .refused r' => r = r'
  | .next _, .fault _ => False
  | .next _, .refused _ => False
  | .fault _, .next _ => False
  | .fault _, .refused _ => False
  | .refused _, .next _ => False
  | .refused _, .fault _ => False

/-- An outcome with its next state changed by `f`. -/
def mapNext (f : State → State) : Host.Outcome State Fault Refusal → Host.Outcome State Fault Refusal
  | .next t => .next (f t)
  | .fault r => .fault r
  | .refused r => .refused r

/-- An outcome, and what is done to its next state; a fault and a refusal are kept. -/
def andThen (o : Host.Outcome State Fault Refusal) (k : State → Host.Outcome State Fault Refusal) :
    Host.Outcome State Fault Refusal :=
  match o with
  | .next t => k t
  | .fault f => .fault f
  | .refused r => .refused r

/-- The opcode word the next step fetches decodes to an instruction of this shape: its row builds `i` from operand 0. -/
def State.nextOpcodeIs (s : State) (i : Instr) : Prop :=
  ∃ r, decodeOpcode s.cfg.opcodeMap (s.mem.read s.pc.toNat) = some r ∧ r.build 0 = i

/-- count after the first part of a step: one more if the step begins in User mode (R27, R90 part 1). -/
def State.countedStep (s : State) : Int := if s.mode = .user then s.cfg.wrap (s.count + 1) else s.count

/-- The state a step hands to the execute phase of the instruction at pc (R90 parts 1 and 2, R92): counted if it starts in
User mode, the opcode word in ir, pc past the instruction's words, their Reads in the trace. -/
def State.atExecute (s : State) (i : Instr) : State :=
  { s with
    count := s.countedStep
    ir := s.mem.read s.pc.toNat
    pc := s.cfg.wrap (if i.hasOperand then s.pc + 2 else s.pc + 1)
    trace := s.trace ++ fetchRequests s i }

/-- `v` is the exact result `e` wrapped to a word: the one word that differs from it by a multiple of 2^WORD_BITS (R11). -/
def IsWrapOf (c : Config) (v e : Int) : Prop := c.IsWord v ∧ (2 : Int) ^ c.wordBits ∣ v - e

/-- The bytes of an integer on the wire: WIRE_INT_BYTES of them, the byte of weight 256^k at place k from the end that
WIRE_ENDIAN says comes first (R62). -/
def IsWireInt (c : Config) (v : Int) (bytes : List (BitVec 8)) : Prop :=
  bytes.length = c.wireIntBytes ∧
    ∀ k, k < c.wireIntBytes →
      bytes[if c.wireEndian = .little then k else c.wireIntBytes - 1 - k]? = some (BitVec.ofInt 8 (v / 256 ^ k))

/-- A request that reaches no address from `n` up. -/
def Request.Below (n : Nat) : Request → Prop
  | .read a => a < (n : Int)
  | .write a _ => a < (n : Int)
  | .terminate => True

end Sys2Proof.Machine
end

