-- ==== Sys2Proof/Certificates/Slice0/Obligations.lean ====
section
/-! DEFINITION. The statements for the provers. Each docstring names the rule of spec/ it formalises; where a clause rests on
a decision of the spec (92_eei_decisions.md D<n>) or on a choice of the model (a log entry), it says so. -/

open Sys2Proof Sys2Proof.Machine

/-! ## Encoding -/

/-- Under every map of distinct words, decoding the words of an instruction gives it back, with its operand word whole and
the following words left over (30_encoding.md R80, R82, R84, R85, R87). -/
def Obligations.DecodeOfEncode : Prop :=
  ∀ (m : OpcodeMap), m.Distinct → ∀ (i : Instr) (rest : List Int), decode m (encode m i ++ rest) = .ok (i, rest)

/-- Under every map, the words a decode took are the words of the instruction it gave: no word has two meanings and no bit
is dropped (R85). -/
def Obligations.EncodeOfDecode : Prop :=
  ∀ (m : OpcodeMap) (ws rest : List Int) (i : Instr), decode m ws = .ok (i, rest) → ws = encode m i ++ rest

/-- In the reference map a word decodes exactly when 1 <= w <= 30 or w = 50 (R85, R86). The numbering is the spec's
decision D9 (log entry 15). -/
def Obligations.LegalOpcodesOfReferenceMap : Prop :=
  ∀ w : Int, (decodeOpcode OpcodeMap.reference w).isSome = true ↔ (1 ≤ w ∧ w ≤ 30) ∨ w = 50

/-- The operand-bearing instructions are exactly these eleven; every other is one word (R83). -/
def Obligations.OperandBearingInstructionsAreEleven : Prop :=
  ∀ (m : OpcodeMap) (i : Instr),
    ((encode m i).length = 2 ↔
      ∃ op, i = .loadImm op ∨ i = .loadAddr op ∨ i = .loadInd op ∨ i = .loadIdxX op ∨ i = .loadIdxY op ∨
        i = .store op ∨ i = .put op ∨ i = .jump op ∨ i = .jumpIfEqual op ∨ i = .jumpIfNotEqual op ∨ i = .call op) ∧
    ((encode m i).length ≠ 2 → (encode m i).length = 1)

/-- Words written out from R84's table decode to their instructions; the first line is the program of R96. -/
def Obligations.ReferenceWordsDecode : Prop :=
  decode OpcodeMap.reference [1, 5, 10, 50] = .ok (.loadImm 5, [10, 50]) ∧
  decode OpcodeMap.reference [10, 50] = .ok (.addX, [50]) ∧
  decode OpcodeMap.reference [50] = .ok (.endRun, []) ∧
  decode OpcodeMap.reference [9, 2, 28] = .ok (.put 2, [28]) ∧
  decode OpcodeMap.reference [23, 10] = .ok (.call 10, []) ∧
  decode OpcodeMap.reference [28, 27] = .ok (.pop, [27]) ∧
  decode OpcodeMap.reference [30, 1] = .ok (.iRet, [1]) ∧
  decode OpcodeMap.reference [31, 1] = .error (.illegalOpcode 31) ∧
  decode OpcodeMap.reference [7] = .error (.operandMissing 7)

/-! ## Reset and launch -/

/-- What every launch leaves (10_state.md R40, 70_reset_and_hazards.md R250, R252): the fixed values, and the launch inputs
where the spec names an input. -/
def Obligations.LaunchSetsTheResetState : Prop :=
  ∀ (c : Config) (l : LaunchInputs) (s : State), launch c l = .next s →
    s.pc = 0 ∧ s.sp = c.userSp0 ∧ s.mode = .user ∧ s.count = 0 ∧ s.timerLimit = l.timerLimit ∧ 1 ≤ s.timerLimit ∧
    s.ac = l.initAc ∧ s.x = l.initX ∧ s.y = l.initY ∧ s.status = .running ∧ s.out = [] ∧ s.mem = l.image ∧
    s.trace = [] ∧ s.cfg = c

/-- A launch is refused exactly on a configuration that breaks R9 or R84 or whose words do not fit WORD_BITS (the last: log
entry 26), on timerLimit <= 0 (R28, R253), on an input that is no word, so on timerLimit > 2^(WORD_BITS-1)-1 (R253), or on an
image that is no memory in the model's form (the MODEL's own check, log entry 24); otherwise it starts a run. -/
def Obligations.LaunchRefusesExactlyBadInputs : Prop :=
  ∀ (c : Config) (l : LaunchInputs),
    (¬ c.WF → launch c l = .refused .configIllFormed) ∧
    (c.WF → l.timerLimit ≤ 0 → launch c l = .refused .timerLimitNotPositive) ∧
    (c.WF → 1 ≤ l.timerLimit → ¬ l.Words c → launch c l = .refused .inputNotAWord) ∧
    (c.WF → 1 ≤ l.timerLimit → l.Words c → ¬ (l.image.WF ∧ l.image.Below c.memWords) →
      launch c l = .refused .imageIllFormed) ∧
    (c.WF → c.TimerLimitOk l.timerLimit → l.Words c → l.image.WF → l.image.Below c.memWords →
      ∃ s, launch c l = .next s)

/-- The values R40 fixes hold of State.reset: pc = 0, sp = 1000, User mode, count = 0, Running, empty logs. The values the
model chose (log entries 5 to 8 and 10) are not claimed. -/
def Obligations.ResetHasTheStatedValues : Prop :=
  State.reset.pc = 0 ∧ State.reset.sp = 1000 ∧ State.reset.mode = .user ∧ State.reset.count = 0 ∧
    State.reset.status = .running ∧ State.reset.out = [] ∧ State.reset.trace = []

/-- The invariant holds after reset. -/
def Obligations.InvHoldsAtReset : Prop := State.reset.Inv

/-- The invariant holds at the start of every run that is not refused (R253). -/
def Obligations.InvHoldsAtEveryLaunch : Prop :=
  ∀ (c : Config) (l : LaunchInputs) (s : State), launch c l = .next s → s.Inv

/-- Every step keeps the invariant: a well-formed configuration, registers and memory that hold words, memory in form and in
range, 0 <= count <= timerLimit (R41), the timer never overdue in User mode (R221), every request in range (R59), Terminate
exactly once and last (R58). -/
def Obligations.StepKeepsInv : Prop :=
  ∀ s t : State, s.Inv → step s = .next t → t.Inv

/-! ## The step -/

/-- When the words at pc can be fetched and decode to i, the step is i's execute phase on the counted, fetched state,
followed by the timer check (30_encoding.md R90, R92). -/
def Obligations.StepRunsDecodedInstruction : Prop :=
  ∀ (s : State) (i : Instr) (rest : List Int), s.status = .running → s.Reliable →
    s.accessFault s.pc .fetch s.pc = none →
    (i.hasOperand = true → s.accessFault s.pc .operand (s.cfg.wrap (s.pc + 1)) = none) →
    decode s.cfg.opcodeMap [s.mem.read s.pc.toNat, s.mem.read (s.cfg.wrap (s.pc + 1)).toNat] = .ok (i, rest) →
    step s = andThen (exec i (s.atExecute i)) fun u => u.timerCheck s.pc

/-- An opcode fetch the checks stop ends the run; the instruction was counted, pc and ir are unchanged, no Read was sent
(R81, R93, 20_memory.md R52, R55). Range faults are decision D4. -/
def Obligations.StepStopsOnFetchFault : Prop :=
  ∀ (s : State) (o : RunStatus), s.status = .running → s.accessFault s.pc .fetch s.pc = some o →
    step s = .next
      { s with count := s.countedStep, status := o, trace := s.trace ++ [.terminate] }

/-- A word that is no opcode of the map ends the run with InvalidOpcode(ir, pc0), in both modes, with pc = pc0 + 1 and
without an operand fetch (45_system.md R193, 60_exceptions.md R203). What the outcome records is decision D24. -/
def Obligations.StepStopsOnIllegalOpcode : Prop :=
  ∀ s : State, s.status = .running → s.Reliable → s.accessFault s.pc .fetch s.pc = none →
    decodeOpcode s.cfg.opcodeMap (s.mem.read s.pc.toNat) = none →
    step s = .next
      { s with
        count := s.countedStep
        ir := s.mem.read s.pc.toNat
        pc := s.cfg.wrap (s.pc + 1)
        status := .invalidOpcode (s.mem.read s.pc.toNat) s.pc
        trace := s.trace ++ [.read s.pc, .terminate] }

/-- Each of the eleven operand-bearing instructions fetches its operand word, or faults at it, as R110 says, after its
decode (R81, R83, R87). -/
def Obligations.OperandFetchOfEveryFormatO : Prop :=
  OperandFetchAsStated .loadImm ∧ OperandFetchAsStated .loadAddr ∧ OperandFetchAsStated .loadInd ∧
  OperandFetchAsStated .loadIdxX ∧ OperandFetchAsStated .loadIdxY ∧ OperandFetchAsStated .store ∧
  OperandFetchAsStated .put ∧ OperandFetchAsStated .jump ∧ OperandFetchAsStated .jumpIfEqual ∧
  OperandFetchAsStated .jumpIfNotEqual ∧ OperandFetchAsStated .call

/-- The timer interrupt is taken at the end of a step exactly when the run is Running, the mode is User and
count = timerLimit (R221); its dispatch then belongs to the same step (R213). -/
def Obligations.TimerFiresExactlyAtTheLimit : Prop :=
  ∀ (s : State) (pc0 : Int),
    (s.status = .running ∧ s.mode = .user ∧ s.count = s.timerLimit →
      s.timerCheck pc0 = (s.interruptDispatch pc0 .timer).toOutcome) ∧
    (¬ (s.status = .running ∧ s.mode = .user ∧ s.count = s.timerLimit) → s.timerCheck pc0 = .next s)

/-- A terminal status has no further step (10_state.md R33, R91). That the model answers a named fault there is its own
convention (log entry 3). -/
def Obligations.EndedRunHasNoStep : Prop :=
  ∀ s : State, s.status ≠ .running → step s = .fault (.runEnded s.status)

/-- A fatal outcome is distinguishable from a normal halt: only Halted has code 0 (60_exceptions.md R200; the codes are
decision D12). -/
def Obligations.FatalOutcomesDifferFromHalt : Prop :=
  ∀ o : RunStatus, o.code = some 0 ↔ o = .halted

/-! ## Loads and store -/

/-- LoadImm, whole (40_load_store.md R110): encoding, operand fetch and its faults, ac <- op, nothing else. -/
def Obligations.LoadImmResult : Prop :=
  OperandFetchAsStated .loadImm ∧
  ∀ (op : Int), encode OpcodeMap.reference (.loadImm op) = [1, op] ∧
    ∀ s : State, exec (.loadImm op) s = .next { s with ac := op }

/-- LoadAddr, whole (R111): a stopped read sends no request and changes nothing but the status; else ac <- M[op]. -/
def Obligations.LoadAddrResult : Prop :=
  OperandFetchAsStated .loadAddr ∧
  ∀ (op : Int), encode OpcodeMap.reference (.loadAddr op) = [2, op] ∧
    ∀ s : State,
      (∀ o, s.accessFault (s.pc - 2) .data op = some o → exec (.loadAddr op) s = .next (s.endedWith o)) ∧
      (s.accessFault (s.pc - 2) .data op = none → s.Reliable →
        exec (.loadAddr op) s = .next { s with ac := s.mem.read op.toNat, trace := s.trace ++ [.read op] })

/-- LoadInd, whole (R112): both reads are checked separately; the second, at p = M[op], may fault after the first. -/
def Obligations.LoadIndResult : Prop :=
  OperandFetchAsStated .loadInd ∧
  ∀ (op : Int), encode OpcodeMap.reference (.loadInd op) = [3, op] ∧
    ∀ s : State,
      (∀ o, s.accessFault (s.pc - 2) .data op = some o → exec (.loadInd op) s = .next (s.endedWith o)) ∧
      (s.accessFault (s.pc - 2) .data op = none → s.Reliable →
        (∀ o, s.accessFault (s.pc - 2) .data (s.mem.read op.toNat) = some o →
          exec (.loadInd op) s = .next { s with status := o, trace := s.trace ++ [.read op, .terminate] }) ∧
        (s.accessFault (s.pc - 2) .data (s.mem.read op.toNat) = none →
          exec (.loadInd op) s = .next
            { s with
              ac := s.mem.read (s.mem.read op.toNat).toNat
              trace := s.trace ++ [.read op, .read (s.mem.read op.toNat)] }))

/-- LoadIdxX, LoadIdxY and LoadSpX (R113, R114, R115): one checked read at op + x, op + y, sp + x, wrapped. The wrap is
decision D2, the fault of a negative address D3 and D4 (log entry 17). -/
def Obligations.IndexedLoadResults : Prop :=
  ∀ (op : Int) (s : State),
    (∀ o, s.accessFault (s.pc - 2) .data (s.cfg.wrap (op + s.x)) = some o → exec (.loadIdxX op) s = .next (s.endedWith o)) ∧
    (s.accessFault (s.pc - 2) .data (s.cfg.wrap (op + s.x)) = none → s.Reliable →
      exec (.loadIdxX op) s = .next
        { s with ac := s.mem.read (s.cfg.wrap (op + s.x)).toNat, trace := s.trace ++ [.read (s.cfg.wrap (op + s.x))] }) ∧
    (∀ o, s.accessFault (s.pc - 2) .data (s.cfg.wrap (op + s.y)) = some o → exec (.loadIdxY op) s = .next (s.endedWith o)) ∧
    (s.accessFault (s.pc - 2) .data (s.cfg.wrap (op + s.y)) = none → s.Reliable →
      exec (.loadIdxY op) s = .next
        { s with ac := s.mem.read (s.cfg.wrap (op + s.y)).toNat, trace := s.trace ++ [.read (s.cfg.wrap (op + s.y))] }) ∧
    (∀ o, s.accessFault (s.pc - 1) .data (s.cfg.wrap (s.sp + s.x)) = some o → exec .loadSpX s = .next (s.endedWith o)) ∧
    (s.accessFault (s.pc - 1) .data (s.cfg.wrap (s.sp + s.x)) = none → s.Reliable →
      exec .loadSpX s = .next
        { s with ac := s.mem.read (s.cfg.wrap (s.sp + s.x)).toNat, trace := s.trace ++ [.read (s.cfg.wrap (s.sp + s.x))] })

/-- Store (R116, 20_memory.md R67): a stopped store writes nothing and sends no request; else M[op] <- ac. -/
def Obligations.StoreResult : Prop :=
  ∀ (op : Int) (s : State),
    (∀ o, s.accessFault (s.pc - 2) .write op = some o → exec (.store op) s = .next (s.endedWith o)) ∧
    (s.accessFault (s.pc - 2) .write op = none → s.Reliable →
      exec (.store op) s = .next
        { s with mem := s.mem.write op.toNat s.ac, trace := s.trace ++ [.write op s.ac] })

/-- A Store is seen by the next fetch of that word, with nothing in between, in a memory that is in form (R68, R70). -/
def Obligations.StoreIsSeenByTheNextFetch : Prop :=
  ∀ (op pc0 : Int) (s : State), s.mem.WF → s.Reliable → s.accessFault (s.pc - 2) .write op = none →
    ∃ t, exec (.store op) s = .next t ∧
      (t.setPc op).fetchWord pc0 .fetch =
        .ok s.ac { t with pc := t.cfg.wrap (op + 1), trace := t.trace ++ [.read op] }

/-! ## Input and output -/

/-- Get (41_io.md R130, R131): ac takes a word in [1, 100], and no other register, no memory and no request changes. The
draw is a free input (decision D16); the counter `draws` is the model's own (log entry 10). -/
def Obligations.GetDrawsFromOneToHundred : Prop :=
  ∀ s : State, ∃ (v : Int) (n : Nat), 1 ≤ v ∧ v ≤ 100 ∧ exec .get s = .next { s with ac := v, draws := n }

/-- Put (R132): selector 1 prints an integer, 2 a character, every other reports PortError and goes on; nothing else
changes. The event form is decision D11. -/
def Obligations.PutEmitsOneEvent : Prop :=
  ∀ (op : Int) (s : State),
    (op = 1 → exec (.put op) s = .next { s with out := s.out ++ [.printInt s.ac] }) ∧
    (op = 2 → exec (.put op) s = .next { s with out := s.out ++ [.printChar s.ac] }) ∧
    (op ≠ 1 → op ≠ 2 → exec (.put op) s = .next { s with out := s.out ++ [.portError op] })

/-! ## Arithmetic and copies -/

/-- AddX, AddY, SubX, SubY (42_arith_copy.md R140 to R143) at every width: ac becomes the word that differs from the exact sum
or difference by a multiple of 2^WORD_BITS (R11, R150; decision D2, log entry 17), and nothing else changes. -/
def Obligations.AddAndSubtractWrap : Prop :=
  ∀ s : State, s.cfg.WF →
    (∃ v, exec .addX s = .next { s with ac := v } ∧ IsWrapOf s.cfg v (s.ac + s.x)) ∧
    (∃ v, exec .addY s = .next { s with ac := v } ∧ IsWrapOf s.cfg v (s.ac + s.y)) ∧
    (∃ v, exec .subX s = .next { s with ac := v } ∧ IsWrapOf s.cfg v (s.ac - s.x)) ∧
    (∃ v, exec .subY s = .next { s with ac := v } ∧ IsWrapOf s.cfg v (s.ac - s.y))

/-- The six register copies: encoding, the copy, no fault, nothing else changes (R144 to R147 whole; of R148 and R149, which
also speak of later stack accesses and of a handler, this part). -/
def Obligations.RegisterCopies : Prop :=
  encode OpcodeMap.reference .copyToX = [14] ∧ encode OpcodeMap.reference .copyFromX = [15] ∧
  encode OpcodeMap.reference .copyToY = [16] ∧ encode OpcodeMap.reference .copyFromY = [17] ∧
  encode OpcodeMap.reference .copyToSp = [18] ∧ encode OpcodeMap.reference .copyFromSp = [19] ∧
  ∀ s : State,
    exec .copyToX s = .next { s with x := s.ac } ∧ exec .copyFromX s = .next { s with ac := s.x } ∧
    exec .copyToY s = .next { s with y := s.ac } ∧ exec .copyFromY s = .next { s with ac := s.y } ∧
    exec .copyToSp s = .next { s with sp := s.ac } ∧ exec .copyFromSp s = .next { s with ac := s.sp }

/-- IncX and DecX (44_index_stack.md R180, R181) at every width: x plus or minus 1, wrapped (decision D2; log entry 17); nothing
else changes. -/
def Obligations.IncrementAndDecrementX : Prop :=
  ∀ s : State, s.cfg.WF →
    (∃ v, exec .incX s = .next { s with x := v } ∧ IsWrapOf s.cfg v (s.x + 1)) ∧
    (∃ v, exec .decX s = .next { s with x := v } ∧ IsWrapOf s.cfg v (s.x - 1))

/-! ## Control transfer -/

/-- Jump, and JumpIfEqual and JumpIfNotEqual whole (43_control.md R161, R162): encoding, operand fetch whether or not the
jump is taken, pc <- op if taken and else pc stays past the operand; nothing else changes. -/
def Obligations.JumpResults : Prop :=
  OperandFetchAsStated .jump ∧ OperandFetchAsStated .jumpIfEqual ∧ OperandFetchAsStated .jumpIfNotEqual ∧
  ∀ op : Int,
    encode OpcodeMap.reference (.jump op) = [20, op] ∧ encode OpcodeMap.reference (.jumpIfEqual op) = [21, op] ∧
    encode OpcodeMap.reference (.jumpIfNotEqual op) = [22, op] ∧
    ∀ s : State,
      exec (.jump op) s = .next { s with pc := op } ∧
      (s.ac = 0 → exec (.jumpIfEqual op) s = .next { s with pc := op } ∧ exec (.jumpIfNotEqual op) s = .next s) ∧
      (s.ac ≠ 0 → exec (.jumpIfEqual op) s = .next s ∧ exec (.jumpIfNotEqual op) s = .next { s with pc := op })

/-- Call (R163): sp is decremented, the return address (pc past the operand) is stored at the new sp, pc <- op. If the
store faults, sp stays decremented and pc stays pc0 + 2 (decision D13; log entry 18). The wrap of sp is decision D2. -/
def Obligations.CallResult : Prop :=
  ∀ (op : Int) (s : State),
    (∀ o, s.accessFault (s.pc - 2) .write (s.cfg.wrap (s.sp - 1)) = some o →
      exec (.call op) s = .next { s.endedWith o with sp := s.cfg.wrap (s.sp - 1) }) ∧
    (s.accessFault (s.pc - 2) .write (s.cfg.wrap (s.sp - 1)) = none → s.Reliable →
      exec (.call op) s = .next
        { s with
          sp := s.cfg.wrap (s.sp - 1)
          pc := op
          mem := s.mem.write (s.cfg.wrap (s.sp - 1)).toNat s.pc
          trace := s.trace ++ [.write (s.cfg.wrap (s.sp - 1)) s.pc] })

/-- Ret, whole (R164): encoding; pc <- M[sp], sp <- sp + 1; on a fault sp and pc are unchanged. -/
def Obligations.RetResult : Prop :=
  encode OpcodeMap.reference .ret = [24] ∧
  ∀ s : State,
    (∀ o, s.accessFault (s.pc - 1) .data s.sp = some o → exec .ret s = .next (s.endedWith o)) ∧
    (s.accessFault (s.pc - 1) .data s.sp = none → s.Reliable →
      exec .ret s = .next
        { s with pc := s.mem.read s.sp.toNat, sp := s.cfg.wrap (s.sp + 1), trace := s.trace ++ [.read s.sp] })

/-- A Call followed by a Ret at its target resumes after the Call's operand with sp restored (R166, vector S5), whatever
happened to pc and ir in between. -/
def Obligations.RetUndoesCall : Prop :=
  ∀ (op pc' ir' : Int) (s : State), s.cfg.WF → s.cfg.IsWord s.sp → s.mem.WF → s.Reliable →
    s.accessFault (s.pc - 2) .write (s.cfg.wrap (s.sp - 1)) = none →
    ∃ t u, exec (.call op) s = .next t ∧ exec .ret { t with pc := pc', ir := ir' } = .next u ∧
      u.pc = s.pc ∧ u.sp = s.sp ∧ u.ac = s.ac ∧ u.mode = s.mode ∧ u.status = s.status

/-! ## Stack -/

/-- Push (R182): sp is decremented, then ac is stored at the new sp. If the store faults, sp stays decremented and memory is
unchanged (decision D13; log entry 18). The wrap of sp is decision D2. -/
def Obligations.PushResult : Prop :=
  ∀ s : State,
    (∀ o, s.accessFault (s.pc - 1) .write (s.cfg.wrap (s.sp - 1)) = some o →
      exec .push s = .next { s.endedWith o with sp := s.cfg.wrap (s.sp - 1) }) ∧
    (s.accessFault (s.pc - 1) .write (s.cfg.wrap (s.sp - 1)) = none → s.Reliable →
      exec .push s = .next
        { s with
          sp := s.cfg.wrap (s.sp - 1)
          mem := s.mem.write (s.cfg.wrap (s.sp - 1)).toNat s.ac
          trace := s.trace ++ [.write (s.cfg.wrap (s.sp - 1)) s.ac] })

/-- Pop (R183): encoding; ac <- M[sp], sp <- sp + 1; on a fault ac and sp are unchanged; and Push followed by Pop leaves ac and
sp unchanged. That the popped word keeps its value is the model's choice (log entry 22): R183 says so of "this model", and the
source leaves it unspecified. -/
def Obligations.PopResult : Prop :=
  encode OpcodeMap.reference .pop = [28] ∧
  (∀ s : State,
    (∀ o, s.accessFault (s.pc - 1) .data s.sp = some o → exec .pop s = .next (s.endedWith o)) ∧
    (s.accessFault (s.pc - 1) .data s.sp = none → s.Reliable →
      exec .pop s = .next
        { s with ac := s.mem.read s.sp.toNat, sp := s.cfg.wrap (s.sp + 1), trace := s.trace ++ [.read s.sp] })) ∧
  (∀ (pc' ir' : Int) (s : State), s.cfg.WF → s.cfg.IsWord s.sp → s.mem.WF → s.Reliable →
    s.accessFault (s.pc - 1) .write (s.cfg.wrap (s.sp - 1)) = none →
    ∃ t u, exec .push s = .next t ∧ exec .pop { t with pc := pc', ir := ir' } = .next u ∧ u.ac = s.ac ∧ u.sp = s.sp)

/-! ## Interrupts and system instructions -/

/-- The interrupt dispatch, whole (60_exceptions.md R212), of both kinds in a well-formed configuration: count, mode, the two
saved words, sp and the handler's entry, and nothing else but the two Writes in the trace. -/
def Obligations.DispatchSavesAndEntersTheHandler : Prop :=
  ∀ (s : State) (pc0 : Int), s.cfg.WF → s.Reliable →
    s.interruptDispatch pc0 .timer = .ok ()
      { s with
        count := 0
        mode := .kernel
        sp := s.cfg.kstackTop - 2
        pc := s.cfg.timerBase
        mem := (s.mem.write (s.cfg.kstackTop - 1).toNat s.sp).write (s.cfg.kstackTop - 2).toNat s.pc
        trace := s.trace ++ [.write (s.cfg.kstackTop - 1) s.sp, .write (s.cfg.kstackTop - 2) s.pc] } ∧
    s.interruptDispatch pc0 .software = .ok ()
      { s with
        mode := .kernel
        sp := s.cfg.kstackTop - 2
        pc := s.cfg.swiBase
        mem := (s.mem.write (s.cfg.kstackTop - 1).toNat s.sp).write (s.cfg.kstackTop - 2).toNat s.pc
        trace := s.trace ++ [.write (s.cfg.kstackTop - 1) s.sp, .write (s.cfg.kstackTop - 2) s.pc] }

/-- Int in User mode (45_system.md R190): the software interrupt is taken, saving pc = pc0 + 1, and count is not reset. -/
def Obligations.IntInUserModeDispatches : Prop :=
  ∀ s : State, s.mode = .user → s.cfg.WF → s.Reliable →
    exec .int s = .next
      { s with
        mode := .kernel
        sp := s.cfg.kstackTop - 2
        pc := s.cfg.swiBase
        mem := (s.mem.write (s.cfg.kstackTop - 1).toNat s.sp).write (s.cfg.kstackTop - 2).toNat s.pc
        trace := s.trace ++ [.write (s.cfg.kstackTop - 1) s.sp, .write (s.cfg.kstackTop - 2) s.pc] }

/-- Int in Kernel mode does what KINT_ACTION says, for each of its three values (R190; decision D5, log entry 11). -/
def Obligations.IntInKernelModeFollowsKintAction : Prop :=
  ∀ s : State, s.mode = .kernel →
    (s.cfg.kintAction = .halt → exec .int s = .next (s.endedWith .halted)) ∧
    (s.cfg.kintAction = .nop → exec .int s = .next s) ∧
    (s.cfg.kintAction = .fault → exec .int s = .next (s.endedWith (.kernelIntFault (s.pc - 1))))

/-- IRet (R191), in either mode (decision D20, log entry 19): pops pc, then sp, and enters User mode; both reads are checked
in the mode it started in. A fault of the first read changes nothing; at a fault of the second, pc and sp already hold the
popped pc and sp + 1 (decision D13, log entry 18). -/
def Obligations.IRetResult : Prop :=
  ∀ s : State,
    (∀ o, s.accessFault (s.pc - 1) .data s.sp = some o → exec .iRet s = .next (s.endedWith o)) ∧
    (s.accessFault (s.pc - 1) .data s.sp = none → s.Reliable →
      (∀ o, s.accessFault (s.pc - 1) .data (s.cfg.wrap (s.sp + 1)) = some o →
        exec .iRet s = .next
          { s with
            pc := s.mem.read s.sp.toNat
            sp := s.cfg.wrap (s.sp + 1)
            status := o
            trace := s.trace ++ [.read s.sp, .terminate] }) ∧
      (s.accessFault (s.pc - 1) .data (s.cfg.wrap (s.sp + 1)) = none →
        exec .iRet s = .next
          { s with
            pc := s.mem.read s.sp.toNat
            sp := s.mem.read (s.cfg.wrap (s.sp + 1)).toNat
            mode := .user
            trace := s.trace ++ [.read s.sp, .read (s.cfg.wrap (s.sp + 1))] }))

/-- The context switch (R233): after a dispatch from User mode, an IRet in any later Kernel state that has sp at
KSTACK_TOP - 2 and the two saved words as the dispatch left them restores pc, sp and mode. -/
def Obligations.IRetUndoesDispatch : Prop :=
  ∀ (s t u : State) (pc0 : Int) (kind : InterruptKind), s.mode = .user → s.cfg.WF → s.Reliable → s.mem.WF →
    s.interruptDispatch pc0 kind = .ok () t →
    u.cfg = t.cfg → u.mode = .kernel → u.sp = s.cfg.kstackTop - 2 →
    u.mem.read (s.cfg.kstackTop - 2).toNat = t.mem.read (s.cfg.kstackTop - 2).toNat →
    u.mem.read (s.cfg.kstackTop - 1).toNat = t.mem.read (s.cfg.kstackTop - 1).toNat →
    ∃ v, exec .iRet u = .next v ∧ v.pc = s.pc ∧ v.sp = s.sp ∧ v.mode = s.mode ∧ v.ac = u.ac ∧ v.x = u.x ∧ v.y = u.y

/-- The deferred timer (R223): an IRet step in Kernel mode with count = timerLimit dispatches the timer interrupt in the same
step, saving the pc and sp it has just restored. -/
def Obligations.DeferredTimerFiresAtIRet : Prop :=
  ∀ s : State, s.status = .running → s.mode = .kernel → s.count = s.timerLimit → s.cfg.WF → s.Reliable → s.mem.WF →
    s.accessFault s.pc .fetch s.pc = none → s.nextOpcodeIs .iRet →
    s.accessFault s.pc .data s.sp = none → s.accessFault s.pc .data (s.cfg.wrap (s.sp + 1)) = none →
    ∃ t, step s = .next t ∧ t.status = .running ∧ t.mode = .kernel ∧ t.count = 0 ∧ t.pc = s.cfg.timerBase ∧
      t.sp = s.cfg.kstackTop - 2 ∧
      t.mem.read (s.cfg.kstackTop - 2).toNat = s.mem.read s.sp.toNat ∧
      t.mem.read (s.cfg.kstackTop - 1).toNat = s.mem.read (s.cfg.wrap (s.sp + 1)).toNat

/-- End, whole (R192): encoding; the run ends Halted with every register kept, in both modes, and the timer check of the
step is skipped even at the limit. -/
def Obligations.EndHalts : Prop :=
  encode OpcodeMap.reference .endRun = [50] ∧
  ∀ (s : State) (pc0 : Int),
    exec .endRun s = .next { s with status := .halted, trace := s.trace ++ [.terminate] } ∧
    ∀ t, exec .endRun s = .next t → t.timerCheck pc0 = .next t

/-! ## Frames: what an instruction leaves unchanged -/

/-- No instruction writes a register that R37's table does not give it; ir, count, timerLimit and the configuration are
never written in an execute phase; and Int in Kernel mode writes no register. -/
def Obligations.ExecWritesOnlyTabledRegisters : Prop :=
  ∀ (i : Instr) (s t : State), exec i s = .next t →
    (.ac ∉ regsWritten i → t.ac = s.ac) ∧ (.x ∉ regsWritten i → t.x = s.x) ∧ (.y ∉ regsWritten i → t.y = s.y) ∧
    (.sp ∉ regsWritten i → t.sp = s.sp) ∧ (.pc ∉ regsWritten i → t.pc = s.pc) ∧
    (.mode ∉ regsWritten i → t.mode = s.mode) ∧
    (i = .int → s.mode = .kernel → t.sp = s.sp ∧ t.pc = s.pc ∧ t.mode = s.mode) ∧
    t.ir = s.ir ∧ t.count = s.count ∧ t.timerLimit = s.timerLimit ∧ t.cfg = s.cfg

/-- No instruction depends on ac, x or y unless R37's table says it reads it: changing the register beforehand changes, if
the instruction does not write it, only that register afterwards, and, if it does, nothing at all where the instruction
goes on. -/
def Obligations.ExecReadsOnlyTabledRegisters : Prop :=
  ∀ (i : Instr) (s : State) (v : Int),
    (.ac ∉ regsRead i → .ac ∉ regsWritten i → exec i (s.setAc v) = mapNext (fun t => t.setAc v) (exec i s)) ∧
    (.x ∉ regsRead i → .x ∉ regsWritten i → exec i (s.setX v) = mapNext (fun t => t.setX v) (exec i s)) ∧
    (.y ∉ regsRead i → .y ∉ regsWritten i → exec i (s.setY v) = mapNext (fun t => t.setY v) (exec i s)) ∧
    (.ac ∉ regsRead i → .ac ∈ regsWritten i → ∀ t, exec i s = .next t → t.status = .running →
      exec i (s.setAc v) = .next t) ∧
    (.x ∉ regsRead i → .x ∈ regsWritten i → exec i (s.setX v) = exec i s) ∧
    (.y ∉ regsRead i → .y ∈ regsWritten i → exec i (s.setY v) = exec i s)

/-- Every word of memory is unchanged but the words the instruction stores to, at the addresses its meaning computes
(R74); a form that stores nothing leaves all of memory unchanged. -/
def Obligations.ExecStoresOnlyWhereStated : Prop :=
  ∀ (i : Instr) (s t : State), exec i s = .next t →
    ∀ a : Nat, a ∉ storesTo s i → t.mem.read a = s.mem.read a

/-- The output log is only appended to, and only by Put (10_state.md R34); the environment is drawn from only by Get
(41_io.md R130). -/
def Obligations.OnlyPutEmitsAndOnlyGetDraws : Prop :=
  ∀ (i : Instr) (s t : State), exec i s = .next t →
    ((∀ op, i ≠ .put op) → t.out = s.out) ∧
    (∀ op, i = .put op → ∃ e, t.out = s.out ++ [e]) ∧
    (i ≠ .get → t.draws = s.draws)

/-- R74's table. In its execute phase an instruction that does not end the run issues exactly its requests, in order, after
its operand fetch (log entry 9). And a whole step that does not end the run issues exactly Read(pc0), Read(pc0+1) if the
instruction has an operand word, the instruction's requests, and the two Writes of a timer interrupt taken after it. -/
def Obligations.ExecIssuesTabledRequests : Prop :=
  (∀ (i : Instr) (s t : State), exec i s = .next t → t.status = .running → t.trace = s.trace ++ requestsOf s i) ∧
  (∀ s t : State, step s = .next t → t.status = .running →
    ∃ (i : Instr) (rest : List Int) (u : State),
      decode s.cfg.opcodeMap [s.mem.read s.pc.toNat, s.mem.read (s.cfg.wrap (s.pc + 1)).toNat] = .ok (i, rest) ∧
      exec i (s.atExecute i) = .next u ∧
      t.trace = s.trace ++ fetchRequests s i ++ requestsOf (s.atExecute i) i ++
        (if u.timerFires = true then dispatchRequests u else []))

/-! ## Rules of the whole machine -/

/-- count, whole (R27): every step that begins in User mode counts one, before its fetch and whatever becomes of it; a timer
dispatch sets it to 0 and a software dispatch keeps it; nothing else moves it, since a step leaves it counted except where the
timer is dispatched; and no instruction writes or reads it. -/
def Obligations.CountMovesOnlyAsStated : Prop :=
  (∀ s t : State, step s = .next t →
    ∃ u : State, u.count = s.countedStep ∧
      ((¬ (u.status = .running ∧ u.mode = .user ∧ u.count = u.timerLimit) ∧ t = u) ∨
       ((u.status = .running ∧ u.mode = .user ∧ u.count = u.timerLimit) ∧
        (u.interruptDispatch s.pc .timer).toOutcome = .next t ∧ t.count = 0))) ∧
  (∀ (u t : State) (pc0 : Int),
    ((u.interruptDispatch pc0 .timer).toOutcome = .next t → t.count = 0) ∧
    ((u.interruptDispatch pc0 .software).toOutcome = .next t → t.count = u.count)) ∧
  (∀ (i : Instr) (s t : State), exec i s = .next t → t.count = s.count) ∧
  (∀ (i : Instr) (s : State) (v : Int), exec i (s.setCount v) = mapNext (fun t => t.setCount v) (exec i s))

/-- timerLimit and the parameters never change during a run (R28, R20). -/
def Obligations.StepKeepsLimitAndConfiguration : Prop :=
  ∀ s t : State, step s = .next t → t.timerLimit = s.timerLimit ∧ t.cfg = s.cfg

/-- The only ways between the modes (R30, R194, R231), in a well-formed configuration: out of User mode by a dispatch, which
leaves a running machine at a handler base with the kernel stack based anew, the timer's with count 0; out of Kernel mode by an
IRet. -/
def Obligations.ModeChangesOnlyByDispatchAndIRet : Prop :=
  ∀ s t : State, s.cfg.WF → step s = .next t → t.mode ≠ s.mode →
    (s.mode = .user → t.status = .running →
      t.sp = s.cfg.kstackTop - 2 ∧
      ((t.pc = s.cfg.timerBase ∧ t.count = 0 ∧ s.countedStep = s.timerLimit) ∨
       (t.pc = s.cfg.swiBase ∧ t.count = s.countedStep ∧ s.nextOpcodeIs .int))) ∧
    (s.mode = .kernel → s.nextOpcodeIs .iRet)

/-- Memory is exactly the trace performed in order: a step only appends requests, and the store afterwards is the store
before with the appended Writes performed (R57, R60, R68). A Write that ends in a transport error is not performed
(decision D14, log entry 12): the statement is of machines whose transport does not fail. -/
def Obligations.MemoryIsTheReplayedTrace : Prop :=
  ∀ s t : State, s.cfg.transportFallible = false → step s = .next t →
    ∃ rs, t.trace = s.trace ++ rs ∧ t.mem = replay s.mem rs

/-- In User mode no access is issued at or above USER_LIMIT (R232, 20_memory.md R52, R66): not by any instruction but the
software interrupt; and not by any step that begins there, its fetches included, but for the two Writes of an interrupt
dispatch, which are made in Kernel mode and leave the step in Kernel mode (and the Terminate that ends a run). -/
def Obligations.UserInstructionsRequestOnlyUserMemory : Prop :=
  (∀ (i : Instr) (s t : State), s.mode = .user → i ≠ .int → exec i s = .next t →
    ∃ rs, t.trace = s.trace ++ rs ∧ ∀ r ∈ rs, r.Below s.cfg.userLimit) ∧
  (∀ s t : State, s.mode = .user → step s = .next t →
    ∃ rs es : List Request, t.trace = s.trace ++ rs ++ es ∧ (∀ r ∈ rs, r.Below s.cfg.userLimit) ∧
      (es = [] ∨ (t.mode = .kernel ∧ ∃ (a b : Int) (ds : List Request),
        ds <+: [.write (s.cfg.wrap (s.cfg.kstackTop - 1)) a, .write (s.cfg.wrap (s.cfg.kstackTop - 2)) b] ∧
          (es = ds ∨ es = ds ++ [.terminate]))))

/-- In a well-formed configuration a step that begins in User mode changes no word of protected memory but the two words an
interrupt dispatch saves, and none at all if it ends in User mode (R232, R214). -/
def Obligations.UserStepCannotChangeKernelMemory : Prop :=
  ∀ s t : State, s.cfg.WF → s.mode = .user → step s = .next t → ∀ a : Nat, s.cfg.userLimit ≤ a →
    (t.mode = .user → t.mem.read a = s.mem.read a) ∧
    (a ≠ (s.cfg.kstackTop - 1).toNat → a ≠ (s.cfg.kstackTop - 2).toNat → t.mem.read a = s.mem.read a)

/-- A step that begins in User mode learns nothing of protected memory: two states with memories in form that differ only in
words at or above USER_LIMIT step to outcomes that differ only there (R230, R232). -/
def Obligations.UserStepCannotReadKernelMemory : Prop :=
  ∀ (s : State) (m' : Memory), s.mode = .user → s.mem.WF → m'.WF → s.mem.AgreeBelow s.cfg.userLimit m' →
    SameBelow s.cfg.userLimit (step s) (step { s with mem := m' })

/-- The run under fuel (30_encoding.md R91, 70_reset_and_hazards.md R271): it repeats the step while the status is Running,
keeps an ended state, can be cut in two anywhere, and keeps the invariant; and a run need not end: some state with the invariant
is Running after any fuel. -/
def Obligations.RunRepeatsStepAndNeedNotEnd : Prop :=
  (∀ (n : Nat) (s : State), s.status ≠ .running → run n s = .next s) ∧
  (∀ (n : Nat) (s : State), s.status = .running → run (n + 1) s = andThen (step s) (run n)) ∧
  (∀ (m n : Nat) (s : State), run (m + n) s = andThen (run m s) (run n)) ∧
  (∀ (n : Nat) (s t : State), s.Inv → run n s = .next t → t.Inv) ∧
  (∃ s : State, s.Inv ∧ ∀ n, ∃ t, run n s = .next t ∧ t.status = .running)

/-! ## Transport, loader, wire and rendering -/

/-- Where TRANSPORT_FALLIBLE, a request either fails, as its free value says, or completes: a failed one ends the run with
TransportError of that request, Terminate is still sent, and a failed Write is not performed (20_memory.md R61; decision
D14, log entry 12). The statement holds for every value of the free value. -/
def Obligations.FailedRequestEndsTheRun : Prop :=
  ∀ (s : State) (a v : Int), s.cfg.transportFallible = true → s.cfg.transportMayHang = false →
    (s.memRead a =
      if Config.freeRequestFails s.trace.length = true then
        .ended { s with status := .transportError (.read a), trace := s.trace ++ [.read a, .terminate] }
      else .ok (s.mem.read a.toNat) { s with trace := s.trace ++ [.read a] }) ∧
    (s.memWrite a v =
      if Config.freeRequestFails s.trace.length = true then
        .ended { s with status := .transportError (.write a v), trace := s.trace ++ [.write a v, .terminate] }
      else .ok () { s with mem := s.mem.write a.toNat v, trace := s.trace ++ [.write a v] })

/-- An opcode Read is either never answered, as its free value says, and then the step has no next state, the core being
stuck (R60, R270), or answered. That the model's parameter lets a Read hang is its own (log entry 13). The statement holds
for every value of the free value. -/
def Obligations.UnansweredReadIsStuck : Prop :=
  ∀ s : State, s.status = .running → s.cfg.transportFallible = false → s.cfg.transportMayHang = true →
    s.accessFault s.pc .fetch s.pc = none →
    if Config.freeReadHangs s.trace.length = true then step s = .fault (.readUnanswered s.pc)
    else s.countStep.fetchWord s.pc .fetch =
      .ok (s.mem.read s.pc.toNat) { s.countStep with pc := s.cfg.wrap (s.pc + 1), trace := s.trace ++ [.read s.pc] }

/-- The load file of R95's example places LoadImm 5 and End at 0 to 2 and IRet at 1000. That loading starts at offset 0 is
decision D8, and that a word no line writes, here the one at 3, reads as 0 is D8's reference (log entry 5). -/
def Obligations.LoadFileExample : Prop :=
  ∃ m, loadImage Config.reference [.word 1, .word 5, .word 50, .offset 1000, .word 30] = some m ∧
    m.read 0 = 1 ∧ m.read 1 = 5 ∧ m.read 2 = 50 ∧ m.read 1000 = 30 ∧ m.read 3 = 0

/-- On a byte-oriented channel a request is one tag byte, then its address, then its value; the response to a Read is one value
and no other request has one (R62). Each integer is WIRE_INT_BYTES bytes, the byte of weight 256^k at the place WIRE_ENDIAN
gives it: both are open parameters (decision D17), and the sign extension of a wider integer is the model's (log entry 14). -/
def Obligations.WireFormOfRequests : Prop :=
  ∀ (c : Config) (a v : Int), ∃ as vs : List (BitVec 8), IsWireInt c a as ∧ IsWireInt c v vs ∧
    Request.wireBytes c (.read a) = 0x72#8 :: as ∧ Request.wireBytes c (.write a v) = 0x77#8 :: (as ++ vs) ∧
    Request.wireBytes c .terminate = [0x45#8] ∧ Request.responseBytes c v (.read a) = vs ∧
    Request.responseBytes c v (.write a v) = [] ∧ Request.responseBytes c v .terminate = []

/-- The reference rendering of vectors I2 to I5: -12 in decimal, 65 and 321 as the character A, a port error on the error
channel only (41_io.md R133, decision D10). -/
def Obligations.RenderingOfVectors : Prop :=
  renderLog [.printInt (-12), .printChar 65, .printChar 321, .portError 0] = ['-', '1', '2', 'A', 'A'] ∧
    OutEvent.diagnostic (.portError 0) = some 0
end

