-- ==== Sys2Proof/Laws/Ended.lean ====
section
/-! SUPPORT. The fields of an ended run (R201): only the status and the trace differ. -/

namespace Sys2Proof.Machine

variable (s : State) (o : RunStatus)

@[simp] theorem State.endedWith_ac : (s.endedWith o).ac = s.ac := rfl
@[simp] theorem State.endedWith_x : (s.endedWith o).x = s.x := rfl
@[simp] theorem State.endedWith_y : (s.endedWith o).y = s.y := rfl
@[simp] theorem State.endedWith_sp : (s.endedWith o).sp = s.sp := rfl
@[simp] theorem State.endedWith_pc : (s.endedWith o).pc = s.pc := rfl
@[simp] theorem State.endedWith_ir : (s.endedWith o).ir = s.ir := rfl
@[simp] theorem State.endedWith_count : (s.endedWith o).count = s.count := rfl
@[simp] theorem State.endedWith_timerLimit : (s.endedWith o).timerLimit = s.timerLimit := rfl
@[simp] theorem State.endedWith_mode : (s.endedWith o).mode = s.mode := rfl
@[simp] theorem State.endedWith_status : (s.endedWith o).status = o := rfl
@[simp] theorem State.endedWith_out : (s.endedWith o).out = s.out := rfl
@[simp] theorem State.endedWith_mem : (s.endedWith o).mem = s.mem := rfl
@[simp] theorem State.endedWith_trace : (s.endedWith o).trace = s.trace ++ [.terminate] := rfl
@[simp] theorem State.endedWith_draws : (s.endedWith o).draws = s.draws := rfl
@[simp] theorem State.endedWith_cfg : (s.endedWith o).cfg = s.cfg := rfl

end Sys2Proof.Machine
end

