-- ==== Sys2Proof/Laws/Memory.lean ====
section
/-! SUPPORT. Memory: a read after a write, the canonical form and the bound on addresses are kept. -/

namespace Sys2Proof.Machine

@[simp] theorem Memory.read_empty (a : Nat) : Memory.read ⟨[]⟩ a = Memory.unlisted := rfl

theorem readCells_of_lt {l : List (Nat × Int)} {a : Nat} (h : ∀ c ∈ l, a < c.1) : readCells l a = Memory.unlisted := by
  induction l with
  | nil => rfl
  | cons c rest ih =>
    have hc := h c (by simp)
    have hr := ih fun d hd => h d (by simp [hd])
    simp [readCells, hr]
    omega

theorem readCells_writeCells_same {l : List (Nat × Int)} (h : l.Pairwise fun c d => c.1 < d.1) (a : Nat) (v : Int) :
    readCells (writeCells a v l) a = v := by
  induction l with
  | nil => by_cases hv : v = Memory.unlisted <;> simp [writeCells, readCells, hv]
  | cons c rest ih =>
    obtain ⟨hc, hrest⟩ := List.pairwise_cons.mp h
    unfold writeCells
    by_cases h1 : a < c.1
    · by_cases hv : v = Memory.unlisted
      · simp only [h1, hv, if_true]
        exact readCells_of_lt fun d hd => by
          rcases List.mem_cons.mp hd with rfl | hd
          · exact h1
          · have := hc d hd; omega
      · simp [h1, hv, readCells]
    · by_cases h2 : a = c.1
      · by_cases hv : v = Memory.unlisted
        · simp only [h2, hv, lt_irrefl, if_false, if_true]
          exact readCells_of_lt hc
        · simp [h2, hv, readCells]
      · have h3 : ¬ c.1 = a := fun h => h2 h.symm
        simp [h1, h2, h3, readCells, ih hrest]

theorem readCells_writeCells_other (l : List (Nat × Int)) {a b : Nat} (v : Int) (h : b ≠ a) :
    readCells (writeCells a v l) b = readCells l b := by
  induction l with
  | nil => by_cases hv : v = Memory.unlisted <;> simp [writeCells, readCells, hv, Ne.symm h]
  | cons c rest ih =>
    unfold writeCells
    split_ifs with h1 hv h2 hv
    · rfl
    · simp [readCells, Ne.symm h]
    · subst h2; simp [readCells, Ne.symm h]
    · subst h2; simp [readCells, Ne.symm h]
    · simp [readCells, ih]

/-- A read after a write to the same address gives the value written (R56, R57). -/
theorem Memory.read_write_same {m : Memory} (h : m.WF) (a : Nat) (v : Int) : (m.write a v).read a = v :=
  readCells_writeCells_same h.1 a v

/-- A write leaves every other address alone (R57). -/
theorem Memory.read_write_other (m : Memory) {a b : Nat} (v : Int) (h : b ≠ a) : (m.write a v).read b = m.read b :=
  readCells_writeCells_other m.cells v h

theorem mem_writeCells {l : List (Nat × Int)} {a : Nat} {v : Int} {c : Nat × Int} (h : c ∈ writeCells a v l) :
    c ∈ l ∨ (c = (a, v) ∧ v ≠ Memory.unlisted) := by
  induction l with
  | nil => by_cases hv : v = Memory.unlisted <;> simp_all [writeCells]
  | cons d rest ih =>
    unfold writeCells at h
    split_ifs at h with h1 hv h2 hv
    · exact .inl h
    · rcases List.mem_cons.mp h with h | h
      · exact .inr ⟨h, hv⟩
      · exact .inl h
    · exact .inl (by simp [h])
    · rcases List.mem_cons.mp h with h | h
      · exact .inr ⟨h, hv⟩
      · exact .inl (by simp [h])
    · rcases List.mem_cons.mp h with h | h
      · exact .inl (by simp [h])
      · rcases ih h with h | h
        · exact .inl (by simp [h])
        · exact .inr h

theorem writeCells_sorted {l : List (Nat × Int)} (h : l.Pairwise fun c d => c.1 < d.1) (a : Nat) (v : Int) :
    (writeCells a v l).Pairwise fun c d => c.1 < d.1 := by
  induction l with
  | nil => by_cases hv : v = Memory.unlisted <;> simp [writeCells, hv]
  | cons c rest ih =>
    obtain ⟨hc, hrest⟩ := List.pairwise_cons.mp h
    unfold writeCells
    split_ifs with h1 hv h2 hv
    · exact h
    · refine List.pairwise_cons.mpr ⟨fun d hd => ?_, h⟩
      rcases List.mem_cons.mp hd with rfl | hd
      · exact h1
      · have := hc d hd; simp only; omega
    · exact hrest
    · subst h2; exact List.pairwise_cons.mpr ⟨hc, hrest⟩
    · refine List.pairwise_cons.mpr ⟨fun d hd => ?_, ih hrest⟩
      rcases mem_writeCells hd with hd | ⟨rfl, -⟩
      · exact hc d hd
      · simp only; omega

/-- A write keeps the canonical form. -/
theorem Memory.write_wf {m : Memory} (h : m.WF) (a : Nat) (v : Int) : (m.write a v).WF := by
  refine ⟨writeCells_sorted h.1 a v, fun c hc => ?_⟩
  rcases mem_writeCells hc with hc | ⟨rfl, hv⟩
  · exact h.2 c hc
  · exact hv

/-- A write below the bound keeps every address below it. -/
theorem Memory.write_below {m : Memory} {n : Nat} (h : m.Below n) {a : Nat} (ha : a < n) (v : Int) :
    (m.write a v).Below n := by
  intro c hc
  rcases mem_writeCells hc with hc | ⟨rfl, -⟩
  · exact h c hc
  · exact ha

/-- Writing several words keeps the canonical form. -/
theorem Memory.writeWords_wf {m : Memory} (h : m.WF) (a : Nat) (vs : List Int) : (m.writeWords a vs).WF := by
  induction vs generalizing m a with
  | nil => exact h
  | cons v rest ih => exact ih (Memory.write_wf h a v) (a + 1)

/-- Performing a list of requests keeps the canonical form. -/
theorem replay_wf {m : Memory} (h : m.WF) (rs : List Request) : (replay m rs).WF := by
  induction rs generalizing m with
  | nil => exact h
  | cons r rest ih =>
    cases r with
    | write a v => exact ih (Memory.write_wf h a.toNat v)
    | read a => exact ih h
    | terminate => exact ih h

theorem replay_append (m : Memory) (rs qs : List Request) : replay m (rs ++ qs) = replay (replay m rs) qs := by
  induction rs generalizing m with
  | nil => rfl
  | cons r rest ih => cases r <;> exact ih _

/-- The image a loader makes is in canonical form. -/
theorem loadLines_wf {n : Nat} {ls : List LoadLine} {off : Int} {m m' : Memory} (h : m.WF)
    (hl : loadLines n ls off m = some m') : m'.WF := by
  induction ls generalizing off m with
  | nil => simp [loadLines] at hl; exact hl ▸ h
  | cons l rest ih =>
    cases l with
    | offset k => exact ih h hl
    | word v =>
      unfold loadLines at hl
      split_ifs at hl
      exact ih (Memory.write_wf h _ v) hl

/-- Memory after reset is in canonical form. -/
theorem reset_mem_wf : State.reset.mem.WF := by decide

end Sys2Proof.Machine
end

