-- ==== Sys2Proof/Laws/State.lean ====
section
/-! SUPPORT. One lemma per field per update of the state, so that no later proof unfolds a record update. -/

namespace Sys2Proof.Machine

variable (s : State)

@[simp] theorem State.setAc_ac (v : Int) : (s.setAc v).ac = v := rfl
@[simp] theorem State.setAc_x (v : Int) : (s.setAc v).x = s.x := rfl
@[simp] theorem State.setAc_y (v : Int) : (s.setAc v).y = s.y := rfl
@[simp] theorem State.setAc_sp (v : Int) : (s.setAc v).sp = s.sp := rfl
@[simp] theorem State.setAc_pc (v : Int) : (s.setAc v).pc = s.pc := rfl
@[simp] theorem State.setAc_ir (v : Int) : (s.setAc v).ir = s.ir := rfl
@[simp] theorem State.setAc_count (v : Int) : (s.setAc v).count = s.count := rfl
@[simp] theorem State.setAc_timerLimit (v : Int) : (s.setAc v).timerLimit = s.timerLimit := rfl
@[simp] theorem State.setAc_mode (v : Int) : (s.setAc v).mode = s.mode := rfl
@[simp] theorem State.setAc_status (v : Int) : (s.setAc v).status = s.status := rfl
@[simp] theorem State.setAc_out (v : Int) : (s.setAc v).out = s.out := rfl
@[simp] theorem State.setAc_mem (v : Int) : (s.setAc v).mem = s.mem := rfl
@[simp] theorem State.setAc_trace (v : Int) : (s.setAc v).trace = s.trace := rfl
@[simp] theorem State.setAc_draws (v : Int) : (s.setAc v).draws = s.draws := rfl
@[simp] theorem State.setAc_cfg (v : Int) : (s.setAc v).cfg = s.cfg := rfl

@[simp] theorem State.setX_ac (v : Int) : (s.setX v).ac = s.ac := rfl
@[simp] theorem State.setX_x (v : Int) : (s.setX v).x = v := rfl
@[simp] theorem State.setX_y (v : Int) : (s.setX v).y = s.y := rfl
@[simp] theorem State.setX_sp (v : Int) : (s.setX v).sp = s.sp := rfl
@[simp] theorem State.setX_pc (v : Int) : (s.setX v).pc = s.pc := rfl
@[simp] theorem State.setX_ir (v : Int) : (s.setX v).ir = s.ir := rfl
@[simp] theorem State.setX_count (v : Int) : (s.setX v).count = s.count := rfl
@[simp] theorem State.setX_timerLimit (v : Int) : (s.setX v).timerLimit = s.timerLimit := rfl
@[simp] theorem State.setX_mode (v : Int) : (s.setX v).mode = s.mode := rfl
@[simp] theorem State.setX_status (v : Int) : (s.setX v).status = s.status := rfl
@[simp] theorem State.setX_out (v : Int) : (s.setX v).out = s.out := rfl
@[simp] theorem State.setX_mem (v : Int) : (s.setX v).mem = s.mem := rfl
@[simp] theorem State.setX_trace (v : Int) : (s.setX v).trace = s.trace := rfl
@[simp] theorem State.setX_draws (v : Int) : (s.setX v).draws = s.draws := rfl
@[simp] theorem State.setX_cfg (v : Int) : (s.setX v).cfg = s.cfg := rfl

@[simp] theorem State.setY_ac (v : Int) : (s.setY v).ac = s.ac := rfl
@[simp] theorem State.setY_x (v : Int) : (s.setY v).x = s.x := rfl
@[simp] theorem State.setY_y (v : Int) : (s.setY v).y = v := rfl
@[simp] theorem State.setY_sp (v : Int) : (s.setY v).sp = s.sp := rfl
@[simp] theorem State.setY_pc (v : Int) : (s.setY v).pc = s.pc := rfl
@[simp] theorem State.setY_ir (v : Int) : (s.setY v).ir = s.ir := rfl
@[simp] theorem State.setY_count (v : Int) : (s.setY v).count = s.count := rfl
@[simp] theorem State.setY_timerLimit (v : Int) : (s.setY v).timerLimit = s.timerLimit := rfl
@[simp] theorem State.setY_mode (v : Int) : (s.setY v).mode = s.mode := rfl
@[simp] theorem State.setY_status (v : Int) : (s.setY v).status = s.status := rfl
@[simp] theorem State.setY_out (v : Int) : (s.setY v).out = s.out := rfl
@[simp] theorem State.setY_mem (v : Int) : (s.setY v).mem = s.mem := rfl
@[simp] theorem State.setY_trace (v : Int) : (s.setY v).trace = s.trace := rfl
@[simp] theorem State.setY_draws (v : Int) : (s.setY v).draws = s.draws := rfl
@[simp] theorem State.setY_cfg (v : Int) : (s.setY v).cfg = s.cfg := rfl

@[simp] theorem State.setSp_ac (v : Int) : (s.setSp v).ac = s.ac := rfl
@[simp] theorem State.setSp_x (v : Int) : (s.setSp v).x = s.x := rfl
@[simp] theorem State.setSp_y (v : Int) : (s.setSp v).y = s.y := rfl
@[simp] theorem State.setSp_sp (v : Int) : (s.setSp v).sp = v := rfl
@[simp] theorem State.setSp_pc (v : Int) : (s.setSp v).pc = s.pc := rfl
@[simp] theorem State.setSp_ir (v : Int) : (s.setSp v).ir = s.ir := rfl
@[simp] theorem State.setSp_count (v : Int) : (s.setSp v).count = s.count := rfl
@[simp] theorem State.setSp_timerLimit (v : Int) : (s.setSp v).timerLimit = s.timerLimit := rfl
@[simp] theorem State.setSp_mode (v : Int) : (s.setSp v).mode = s.mode := rfl
@[simp] theorem State.setSp_status (v : Int) : (s.setSp v).status = s.status := rfl
@[simp] theorem State.setSp_out (v : Int) : (s.setSp v).out = s.out := rfl
@[simp] theorem State.setSp_mem (v : Int) : (s.setSp v).mem = s.mem := rfl
@[simp] theorem State.setSp_trace (v : Int) : (s.setSp v).trace = s.trace := rfl
@[simp] theorem State.setSp_draws (v : Int) : (s.setSp v).draws = s.draws := rfl
@[simp] theorem State.setSp_cfg (v : Int) : (s.setSp v).cfg = s.cfg := rfl

@[simp] theorem State.setPc_ac (v : Int) : (s.setPc v).ac = s.ac := rfl
@[simp] theorem State.setPc_x (v : Int) : (s.setPc v).x = s.x := rfl
@[simp] theorem State.setPc_y (v : Int) : (s.setPc v).y = s.y := rfl
@[simp] theorem State.setPc_sp (v : Int) : (s.setPc v).sp = s.sp := rfl
@[simp] theorem State.setPc_pc (v : Int) : (s.setPc v).pc = v := rfl
@[simp] theorem State.setPc_ir (v : Int) : (s.setPc v).ir = s.ir := rfl
@[simp] theorem State.setPc_count (v : Int) : (s.setPc v).count = s.count := rfl
@[simp] theorem State.setPc_timerLimit (v : Int) : (s.setPc v).timerLimit = s.timerLimit := rfl
@[simp] theorem State.setPc_mode (v : Int) : (s.setPc v).mode = s.mode := rfl
@[simp] theorem State.setPc_status (v : Int) : (s.setPc v).status = s.status := rfl
@[simp] theorem State.setPc_out (v : Int) : (s.setPc v).out = s.out := rfl
@[simp] theorem State.setPc_mem (v : Int) : (s.setPc v).mem = s.mem := rfl
@[simp] theorem State.setPc_trace (v : Int) : (s.setPc v).trace = s.trace := rfl
@[simp] theorem State.setPc_draws (v : Int) : (s.setPc v).draws = s.draws := rfl
@[simp] theorem State.setPc_cfg (v : Int) : (s.setPc v).cfg = s.cfg := rfl

@[simp] theorem State.setIr_ac (v : Int) : (s.setIr v).ac = s.ac := rfl
@[simp] theorem State.setIr_x (v : Int) : (s.setIr v).x = s.x := rfl
@[simp] theorem State.setIr_y (v : Int) : (s.setIr v).y = s.y := rfl
@[simp] theorem State.setIr_sp (v : Int) : (s.setIr v).sp = s.sp := rfl
@[simp] theorem State.setIr_pc (v : Int) : (s.setIr v).pc = s.pc := rfl
@[simp] theorem State.setIr_ir (v : Int) : (s.setIr v).ir = v := rfl
@[simp] theorem State.setIr_count (v : Int) : (s.setIr v).count = s.count := rfl
@[simp] theorem State.setIr_timerLimit (v : Int) : (s.setIr v).timerLimit = s.timerLimit := rfl
@[simp] theorem State.setIr_mode (v : Int) : (s.setIr v).mode = s.mode := rfl
@[simp] theorem State.setIr_status (v : Int) : (s.setIr v).status = s.status := rfl
@[simp] theorem State.setIr_out (v : Int) : (s.setIr v).out = s.out := rfl
@[simp] theorem State.setIr_mem (v : Int) : (s.setIr v).mem = s.mem := rfl
@[simp] theorem State.setIr_trace (v : Int) : (s.setIr v).trace = s.trace := rfl
@[simp] theorem State.setIr_draws (v : Int) : (s.setIr v).draws = s.draws := rfl
@[simp] theorem State.setIr_cfg (v : Int) : (s.setIr v).cfg = s.cfg := rfl

@[simp] theorem State.setCount_ac (v : Int) : (s.setCount v).ac = s.ac := rfl
@[simp] theorem State.setCount_x (v : Int) : (s.setCount v).x = s.x := rfl
@[simp] theorem State.setCount_y (v : Int) : (s.setCount v).y = s.y := rfl
@[simp] theorem State.setCount_sp (v : Int) : (s.setCount v).sp = s.sp := rfl
@[simp] theorem State.setCount_pc (v : Int) : (s.setCount v).pc = s.pc := rfl
@[simp] theorem State.setCount_ir (v : Int) : (s.setCount v).ir = s.ir := rfl
@[simp] theorem State.setCount_count (v : Int) : (s.setCount v).count = v := rfl
@[simp] theorem State.setCount_timerLimit (v : Int) : (s.setCount v).timerLimit = s.timerLimit := rfl
@[simp] theorem State.setCount_mode (v : Int) : (s.setCount v).mode = s.mode := rfl
@[simp] theorem State.setCount_status (v : Int) : (s.setCount v).status = s.status := rfl
@[simp] theorem State.setCount_out (v : Int) : (s.setCount v).out = s.out := rfl
@[simp] theorem State.setCount_mem (v : Int) : (s.setCount v).mem = s.mem := rfl
@[simp] theorem State.setCount_trace (v : Int) : (s.setCount v).trace = s.trace := rfl
@[simp] theorem State.setCount_draws (v : Int) : (s.setCount v).draws = s.draws := rfl
@[simp] theorem State.setCount_cfg (v : Int) : (s.setCount v).cfg = s.cfg := rfl

@[simp] theorem State.setMode_ac (m : Mode) : (s.setMode m).ac = s.ac := rfl
@[simp] theorem State.setMode_x (m : Mode) : (s.setMode m).x = s.x := rfl
@[simp] theorem State.setMode_y (m : Mode) : (s.setMode m).y = s.y := rfl
@[simp] theorem State.setMode_sp (m : Mode) : (s.setMode m).sp = s.sp := rfl
@[simp] theorem State.setMode_pc (m : Mode) : (s.setMode m).pc = s.pc := rfl
@[simp] theorem State.setMode_ir (m : Mode) : (s.setMode m).ir = s.ir := rfl
@[simp] theorem State.setMode_count (m : Mode) : (s.setMode m).count = s.count := rfl
@[simp] theorem State.setMode_timerLimit (m : Mode) : (s.setMode m).timerLimit = s.timerLimit := rfl
@[simp] theorem State.setMode_mode (m : Mode) : (s.setMode m).mode = m := rfl
@[simp] theorem State.setMode_status (m : Mode) : (s.setMode m).status = s.status := rfl
@[simp] theorem State.setMode_out (m : Mode) : (s.setMode m).out = s.out := rfl
@[simp] theorem State.setMode_mem (m : Mode) : (s.setMode m).mem = s.mem := rfl
@[simp] theorem State.setMode_trace (m : Mode) : (s.setMode m).trace = s.trace := rfl
@[simp] theorem State.setMode_draws (m : Mode) : (s.setMode m).draws = s.draws := rfl
@[simp] theorem State.setMode_cfg (m : Mode) : (s.setMode m).cfg = s.cfg := rfl

@[simp] theorem State.setWord_ac (a v : Int) : (s.setWord a v).ac = s.ac := rfl
@[simp] theorem State.setWord_x (a v : Int) : (s.setWord a v).x = s.x := rfl
@[simp] theorem State.setWord_y (a v : Int) : (s.setWord a v).y = s.y := rfl
@[simp] theorem State.setWord_sp (a v : Int) : (s.setWord a v).sp = s.sp := rfl
@[simp] theorem State.setWord_pc (a v : Int) : (s.setWord a v).pc = s.pc := rfl
@[simp] theorem State.setWord_ir (a v : Int) : (s.setWord a v).ir = s.ir := rfl
@[simp] theorem State.setWord_count (a v : Int) : (s.setWord a v).count = s.count := rfl
@[simp] theorem State.setWord_timerLimit (a v : Int) : (s.setWord a v).timerLimit = s.timerLimit := rfl
@[simp] theorem State.setWord_mode (a v : Int) : (s.setWord a v).mode = s.mode := rfl
@[simp] theorem State.setWord_status (a v : Int) : (s.setWord a v).status = s.status := rfl
@[simp] theorem State.setWord_out (a v : Int) : (s.setWord a v).out = s.out := rfl
@[simp] theorem State.setWord_mem (a v : Int) : (s.setWord a v).mem = s.mem.write a.toNat v := rfl
@[simp] theorem State.setWord_trace (a v : Int) : (s.setWord a v).trace = s.trace := rfl
@[simp] theorem State.setWord_draws (a v : Int) : (s.setWord a v).draws = s.draws := rfl
@[simp] theorem State.setWord_cfg (a v : Int) : (s.setWord a v).cfg = s.cfg := rfl

@[simp] theorem State.request_ac (r : Request) : (s.request r).ac = s.ac := rfl
@[simp] theorem State.request_x (r : Request) : (s.request r).x = s.x := rfl
@[simp] theorem State.request_y (r : Request) : (s.request r).y = s.y := rfl
@[simp] theorem State.request_sp (r : Request) : (s.request r).sp = s.sp := rfl
@[simp] theorem State.request_pc (r : Request) : (s.request r).pc = s.pc := rfl
@[simp] theorem State.request_ir (r : Request) : (s.request r).ir = s.ir := rfl
@[simp] theorem State.request_count (r : Request) : (s.request r).count = s.count := rfl
@[simp] theorem State.request_timerLimit (r : Request) : (s.request r).timerLimit = s.timerLimit := rfl
@[simp] theorem State.request_mode (r : Request) : (s.request r).mode = s.mode := rfl
@[simp] theorem State.request_status (r : Request) : (s.request r).status = s.status := rfl
@[simp] theorem State.request_out (r : Request) : (s.request r).out = s.out := rfl
@[simp] theorem State.request_mem (r : Request) : (s.request r).mem = s.mem := rfl
@[simp] theorem State.request_trace (r : Request) : (s.request r).trace = s.trace ++ [r] := rfl
@[simp] theorem State.request_draws (r : Request) : (s.request r).draws = s.draws := rfl
@[simp] theorem State.request_cfg (r : Request) : (s.request r).cfg = s.cfg := rfl

@[simp] theorem State.emit_ac (e : OutEvent) : (s.emit e).ac = s.ac := rfl
@[simp] theorem State.emit_x (e : OutEvent) : (s.emit e).x = s.x := rfl
@[simp] theorem State.emit_y (e : OutEvent) : (s.emit e).y = s.y := rfl
@[simp] theorem State.emit_sp (e : OutEvent) : (s.emit e).sp = s.sp := rfl
@[simp] theorem State.emit_pc (e : OutEvent) : (s.emit e).pc = s.pc := rfl
@[simp] theorem State.emit_ir (e : OutEvent) : (s.emit e).ir = s.ir := rfl
@[simp] theorem State.emit_count (e : OutEvent) : (s.emit e).count = s.count := rfl
@[simp] theorem State.emit_timerLimit (e : OutEvent) : (s.emit e).timerLimit = s.timerLimit := rfl
@[simp] theorem State.emit_mode (e : OutEvent) : (s.emit e).mode = s.mode := rfl
@[simp] theorem State.emit_status (e : OutEvent) : (s.emit e).status = s.status := rfl
@[simp] theorem State.emit_out (e : OutEvent) : (s.emit e).out = s.out ++ [e] := rfl
@[simp] theorem State.emit_mem (e : OutEvent) : (s.emit e).mem = s.mem := rfl
@[simp] theorem State.emit_trace (e : OutEvent) : (s.emit e).trace = s.trace := rfl
@[simp] theorem State.emit_draws (e : OutEvent) : (s.emit e).draws = s.draws := rfl
@[simp] theorem State.emit_cfg (e : OutEvent) : (s.emit e).cfg = s.cfg := rfl

@[simp] theorem State.countDraw_ac : (s.countDraw).ac = s.ac := rfl
@[simp] theorem State.countDraw_x : (s.countDraw).x = s.x := rfl
@[simp] theorem State.countDraw_y : (s.countDraw).y = s.y := rfl
@[simp] theorem State.countDraw_sp : (s.countDraw).sp = s.sp := rfl
@[simp] theorem State.countDraw_pc : (s.countDraw).pc = s.pc := rfl
@[simp] theorem State.countDraw_ir : (s.countDraw).ir = s.ir := rfl
@[simp] theorem State.countDraw_count : (s.countDraw).count = s.count := rfl
@[simp] theorem State.countDraw_timerLimit : (s.countDraw).timerLimit = s.timerLimit := rfl
@[simp] theorem State.countDraw_mode : (s.countDraw).mode = s.mode := rfl
@[simp] theorem State.countDraw_status : (s.countDraw).status = s.status := rfl
@[simp] theorem State.countDraw_out : (s.countDraw).out = s.out := rfl
@[simp] theorem State.countDraw_mem : (s.countDraw).mem = s.mem := rfl
@[simp] theorem State.countDraw_trace : (s.countDraw).trace = s.trace := rfl
@[simp] theorem State.countDraw_draws : (s.countDraw).draws = s.draws + 1 := rfl
@[simp] theorem State.countDraw_cfg : (s.countDraw).cfg = s.cfg := rfl

@[simp] theorem State.endRun_ac (o : RunStatus) : (s.endRun o).ac = s.ac := rfl
@[simp] theorem State.endRun_x (o : RunStatus) : (s.endRun o).x = s.x := rfl
@[simp] theorem State.endRun_y (o : RunStatus) : (s.endRun o).y = s.y := rfl
@[simp] theorem State.endRun_sp (o : RunStatus) : (s.endRun o).sp = s.sp := rfl
@[simp] theorem State.endRun_pc (o : RunStatus) : (s.endRun o).pc = s.pc := rfl
@[simp] theorem State.endRun_ir (o : RunStatus) : (s.endRun o).ir = s.ir := rfl
@[simp] theorem State.endRun_count (o : RunStatus) : (s.endRun o).count = s.count := rfl
@[simp] theorem State.endRun_timerLimit (o : RunStatus) : (s.endRun o).timerLimit = s.timerLimit := rfl
@[simp] theorem State.endRun_mode (o : RunStatus) : (s.endRun o).mode = s.mode := rfl
@[simp] theorem State.endRun_status (o : RunStatus) : (s.endRun o).status = o := rfl
@[simp] theorem State.endRun_out (o : RunStatus) : (s.endRun o).out = s.out := rfl
@[simp] theorem State.endRun_mem (o : RunStatus) : (s.endRun o).mem = s.mem := rfl
@[simp] theorem State.endRun_trace (o : RunStatus) : (s.endRun o).trace = s.trace ++ [.terminate] := rfl
@[simp] theorem State.endRun_draws (o : RunStatus) : (s.endRun o).draws = s.draws := rfl
@[simp] theorem State.endRun_cfg (o : RunStatus) : (s.endRun o).cfg = s.cfg := rfl

end Sys2Proof.Machine
end

