-- ==== Sys2Proof/Laws/Access.lean ====
section
/-! SUPPORT. What each shared operation can do, said once: the checked accesses, fetching, the dispatch and the return. -/

namespace Sys2Proof.Machine

@[simp] theorem Access.bind_ok {α β : Type} (v : α) (s : State) (k : α → State → Access β) :
    (Access.ok v s).bind k = k v s := rfl

@[simp] theorem Access.bind_ended {α β : Type} (s : State) (k : α → State → Access β) :
    (Access.ended s : Access α).bind k = .ended s := rfl

@[simp] theorem Access.bind_stuck {α β : Type} (f : Fault) (k : α → State → Access β) :
    (Access.stuck f : Access α).bind k = .stuck f := rfl

@[simp] theorem Access.toOutcome_ok {α : Type} (v : α) (s : State) : (Access.ok v s).toOutcome = .next s := rfl

@[simp] theorem Access.toOutcome_ended {α : Type} (s : State) : (Access.ended s : Access α).toOutcome = .next s := rfl

@[simp] theorem Access.toOutcome_stuck {α : Type} (f : Fault) : (Access.stuck f : Access α).toOutcome = .fault f := rfl

@[simp] theorem State.endRun_eq (s : State) (o : RunStatus) : s.endRun o = s.endedWith o := rfl

/-- The checked read: the outcome of its checks, else the request (R53). -/
theorem State.load_eq (s : State) (pc0 : Int) (kind : AccessKind) (a : Int) :
    s.load pc0 kind a = match s.accessFault pc0 kind a with
      | some o => .ended (s.endedWith o)
      | none => s.memRead a := by
  unfold State.load State.accessFault State.violates State.outOfRange
  cases hm : s.mode
  · simp; split_ifs <;> simp_all
  · simp; split_ifs <;> simp_all

/-- The checked write: the outcome of its checks, else the request (R54). -/
theorem State.store_eq (s : State) (pc0 : Int) (a v : Int) :
    s.store pc0 a v = match s.accessFault pc0 .write a with
      | some o => .ended (s.endedWith o)
      | none => s.memWrite a v := by
  unfold State.store State.accessFault State.violates State.outOfRange
  cases hm : s.mode
  · simp; split_ifs <;> simp_all
  · simp; split_ifs <;> simp_all

/-- Where every request completes, a Read answers the stored word (R56). -/
theorem State.memRead_reliable {s : State} (h : s.Reliable) (a : Int) :
    s.memRead a = .ok (s.mem.read a.toNat) (s.request (.read a)) := by
  simp [State.memRead, State.requestFails, State.readHangs, h.1, h.2]

/-- Where every request completes, a Write is performed (R57). -/
theorem State.memWrite_reliable {s : State} (h : s.Reliable) (a v : Int) :
    s.memWrite a v = .ok () ((s.request (.write a v)).setWord a v) := by
  simp [State.memWrite, State.requestFails, h.1]

theorem State.load_fault {s : State} {pc0 : Int} {kind : AccessKind} {a : Int} {o : RunStatus}
    (h : s.accessFault pc0 kind a = some o) : s.load pc0 kind a = .ended (s.endedWith o) := by simp [State.load_eq, h]

theorem State.store_fault {s : State} {pc0 a v : Int} {o : RunStatus}
    (h : s.accessFault pc0 .write a = some o) : s.store pc0 a v = .ended (s.endedWith o) := by simp [State.store_eq, h]

theorem State.load_ok {s : State} {pc0 : Int} {kind : AccessKind} {a : Int} (hr : s.Reliable)
    (h : s.accessFault pc0 kind a = none) :
    s.load pc0 kind a = .ok (s.mem.read a.toNat) (s.request (.read a)) := by
  simp [State.load_eq, h, State.memRead_reliable hr]

theorem State.store_ok {s : State} {pc0 a v : Int} (hr : s.Reliable) (h : s.accessFault pc0 .write a = none) :
    s.store pc0 a v = .ok () ((s.request (.write a v)).setWord a v) := by
  simp [State.store_eq, h, State.memWrite_reliable hr]

/-- What the checks of an access look at: the mode and the configuration. -/
theorem State.accessFault_congr {s t : State} (hm : t.mode = s.mode) (hc : t.cfg = s.cfg) (pc0 : Int)
    (kind : AccessKind) (a : Int) : t.accessFault pc0 kind a = s.accessFault pc0 kind a := by
  simp [State.accessFault, hm, hc]

/-- When the checks pass an access. -/
theorem State.accessFault_none {s : State} {pc0 : Int} {kind : AccessKind} {a : Int} :
    s.accessFault pc0 kind a = none ↔
      (s.mode = .user → a < (s.cfg.userLimit : Int)) ∧ 0 ≤ a ∧ a < (s.cfg.memWords : Int) := by
  unfold State.accessFault
  constructor
  · intro h
    split_ifs at h with h1 h2
    push Not at h1 h2
    exact ⟨h1, h2⟩
  · rintro ⟨hu, h0, hn⟩
    rw [if_neg fun h => by have := hu h.1; omega, if_neg (by omega)]

/-- An outcome of the checks ends the run. -/
theorem State.accessFault_ne_running {s : State} {pc0 : Int} {kind : AccessKind} {a : Int} {o : RunStatus}
    (h : s.accessFault pc0 kind a = some o) : o ≠ .running := by
  unfold State.accessFault at h
  split_ifs at h <;> simp_all <;> subst h <;> simp

/-- Only a fallible transport fails a request (R61). -/
theorem State.fallible_of_requestFails {s : State} (h : s.requestFails = true) : s.cfg.transportFallible = true := by
  unfold State.requestFails at h
  exact (Bool.and_eq_true_iff.mp h).1

/-- All a checked read can do (R53): its checks end the run with no request sent; the request fails; the Read hangs; or it
answers the stored word, with one Read in the trace. -/
theorem State.load_cases (s : State) (pc0 : Int) (kind : AccessKind) (a : Int) :
    (∃ o, s.accessFault pc0 kind a = some o ∧ s.load pc0 kind a = .ended (s.endedWith o)) ∨
    (s.accessFault pc0 kind a = none ∧ s.cfg.transportFallible = true ∧
      s.load pc0 kind a = .ended ((s.request (.read a)).endedWith (.transportError (.read a)))) ∨
    (s.accessFault pc0 kind a = none ∧ s.cfg.transportMayHang = true ∧
      s.load pc0 kind a = .stuck (.readUnanswered a)) ∨
    (s.accessFault pc0 kind a = none ∧ s.load pc0 kind a = .ok (s.mem.read a.toNat) (s.request (.read a))) := by
  rw [State.load_eq]
  cases h : s.accessFault pc0 kind a with
  | some o => exact .inl ⟨o, rfl, rfl⟩
  | none =>
    simp only [State.memRead]
    by_cases h1 : s.requestFails = true
    · exact .inr (.inl ⟨trivial, State.fallible_of_requestFails h1, by rw [if_pos h1]; rfl⟩)
    · by_cases h2 : s.readHangs = true
      · exact .inr (.inr (.inl ⟨trivial, (Bool.and_eq_true_iff.mp h2).1, by rw [if_neg h1, if_pos h2]⟩))
      · exact .inr (.inr (.inr ⟨trivial, by rw [if_neg h1, if_neg h2]⟩))

/-- All a checked write can do (R54): its checks end the run with no request sent and nothing stored; the request fails, and
nothing is stored; or the word is stored, with one Write in the trace. -/
theorem State.store_cases (s : State) (pc0 a v : Int) :
    (∃ o, s.accessFault pc0 .write a = some o ∧ s.store pc0 a v = .ended (s.endedWith o)) ∨
    (s.accessFault pc0 .write a = none ∧ s.cfg.transportFallible = true ∧
      s.store pc0 a v = .ended ((s.request (.write a v)).endedWith (.transportError (.write a v)))) ∨
    (s.accessFault pc0 .write a = none ∧ s.store pc0 a v = .ok () ((s.request (.write a v)).setWord a v)) := by
  rw [State.store_eq]
  cases h : s.accessFault pc0 .write a with
  | some o => exact .inl ⟨o, rfl, rfl⟩
  | none =>
    simp only [State.memWrite]
    by_cases h1 : s.requestFails = true
    · exact .inr (.inl ⟨trivial, State.fallible_of_requestFails h1, by rw [if_pos h1]; rfl⟩)
    · exact .inr (.inr ⟨trivial, by rw [if_neg h1]⟩)

/-- A fetch the checks stop: the run ends and pc is not advanced (R81). -/
theorem State.fetchWord_fault {s : State} {pc0 : Int} {kind : AccessKind} {o : RunStatus}
    (h : s.accessFault pc0 kind s.pc = some o) : s.fetchWord pc0 kind = .ended (s.endedWith o) := by
  simp [State.fetchWord, State.load_fault h]

/-- A fetch that goes through: the word at pc, and pc past it (R81). -/
theorem State.fetchWord_ok {s : State} {pc0 : Int} {kind : AccessKind} (hr : s.Reliable)
    (h : s.accessFault pc0 kind s.pc = none) :
    s.fetchWord pc0 kind =
      .ok (s.mem.read s.pc.toNat) { s with pc := s.cfg.wrap (s.pc + 1), trace := s.trace ++ [.read s.pc] } := by
  simp [State.fetchWord, State.load_ok hr h, State.request, State.setPc]

end Sys2Proof.Machine
end

