-- ==== Sys2Proof/Laws/Decode.lean ====
section
/-! SUPPORT. The rows of the opcode map: each instruction has its row, each row its instructions, and under a map of distinct
words an opcode word has one row. -/

namespace Sys2Proof

theorem decodeRows_values (m : OpcodeMap) : (decodeRows m).map DecodeRow.value = m.words := rfl

theorem find?_of_nodup {α β : Type} [BEq β] [LawfulBEq β] (f : α → β) {l : List α} (h : (l.map f).Nodup) {r : α}
    (hr : r ∈ l) : l.find? (fun q => f q == f r) = some r := by
  induction l with
  | nil => simp at hr
  | cons q rest ih =>
    rw [List.map_cons] at h
    obtain ⟨hq, hrest⟩ := List.nodup_cons.mp h
    rcases List.mem_cons.mp hr with rfl | hr
    · simp
    · have hne : (f q == f r) = false := by
        rw [beq_eq_false_iff_ne]
        intro he
        exact hq (he ▸ List.mem_map_of_mem hr)
      rw [List.find?_cons, hne]
      exact ih hrest hr

/-- Under a map of distinct words, a row is found by its word (R85). -/
theorem decodeOpcode_of_mem {m : OpcodeMap} (h : m.Distinct) {r : DecodeRow} (hr : r ∈ decodeRows m) :
    decodeOpcode m r.value = some r :=
  find?_of_nodup DecodeRow.value (by rw [decodeRows_values]; exact h) hr

/-- A row that is found is a row of the map, and has the word looked up. -/
theorem decodeOpcode_some {m : OpcodeMap} {w : Int} {r : DecodeRow} (h : decodeOpcode m w = some r) :
    r ∈ decodeRows m ∧ r.value = w :=
  ⟨List.mem_of_find?_eq_some h, by simpa using List.find?_some h⟩

/-- What a row builds has the row's opcode word, the row's operand words and the row's length (R83, R84). -/
theorem row_build {m : OpcodeMap} {r : DecodeRow} (h : r ∈ decodeRows m) (op : Int) :
    opcodeOf m (r.build op) = r.value ∧ (r.build op).hasOperand = r.hasOperand ∧
      operandWords (r.build op) = (if r.hasOperand then [op] else []) ∧
      (r.hasOperand = false → r.build op = r.build 0) := by
  simp only [decodeRows, loadStoreRows, inOutRows, arithCopyRows, controlRows, indexStackRows, systemRows,
    List.cons_append, List.nil_append, List.mem_cons, List.not_mem_nil, or_false] at h
  rcases h with h | h | h | h | h | h | h | h | h | h | h | h | h | h | h | h | h | h | h | h | h | h | h | h | h | h |
    h | h | h | h | h <;> subst h <;> exact ⟨rfl, rfl, rfl, fun h => by first | rfl | cases h⟩

/-- Every instruction has a row that builds it from its operand (R84). -/
theorem row_of_instr (m : OpcodeMap) (i : Instr) :
    ∃ r ∈ decodeRows m, r.value = opcodeOf m i ∧ r.hasOperand = i.hasOperand ∧
      ∃ op, r.build op = i ∧ operandWords i = if r.hasOperand then [op] else [] := by
  cases i with
  | loadImm op => exact ⟨⟨m.loadImm, true, .loadImm⟩, by simp [decodeRows, loadStoreRows], rfl, rfl, op, rfl, rfl⟩
  | loadAddr op => exact ⟨⟨m.loadAddr, true, .loadAddr⟩, by simp [decodeRows, loadStoreRows], rfl, rfl, op, rfl, rfl⟩
  | loadInd op => exact ⟨⟨m.loadInd, true, .loadInd⟩, by simp [decodeRows, loadStoreRows], rfl, rfl, op, rfl, rfl⟩
  | loadIdxX op => exact ⟨⟨m.loadIdxX, true, .loadIdxX⟩, by simp [decodeRows, loadStoreRows], rfl, rfl, op, rfl, rfl⟩
  | loadIdxY op => exact ⟨⟨m.loadIdxY, true, .loadIdxY⟩, by simp [decodeRows, loadStoreRows], rfl, rfl, op, rfl, rfl⟩
  | loadSpX => exact ⟨⟨m.loadSpX, false, fun _ => .loadSpX⟩, by simp [decodeRows, loadStoreRows], rfl, rfl, 0, rfl, rfl⟩
  | store op => exact ⟨⟨m.store, true, .store⟩, by simp [decodeRows, loadStoreRows], rfl, rfl, op, rfl, rfl⟩
  | get => exact ⟨⟨m.get, false, fun _ => .get⟩, by simp [decodeRows, inOutRows], rfl, rfl, 0, rfl, rfl⟩
  | put op => exact ⟨⟨m.put, true, .put⟩, by simp [decodeRows, inOutRows], rfl, rfl, op, rfl, rfl⟩
  | addX => exact ⟨⟨m.addX, false, fun _ => .addX⟩, by simp [decodeRows, arithCopyRows], rfl, rfl, 0, rfl, rfl⟩
  | addY => exact ⟨⟨m.addY, false, fun _ => .addY⟩, by simp [decodeRows, arithCopyRows], rfl, rfl, 0, rfl, rfl⟩
  | subX => exact ⟨⟨m.subX, false, fun _ => .subX⟩, by simp [decodeRows, arithCopyRows], rfl, rfl, 0, rfl, rfl⟩
  | subY => exact ⟨⟨m.subY, false, fun _ => .subY⟩, by simp [decodeRows, arithCopyRows], rfl, rfl, 0, rfl, rfl⟩
  | copyToX => exact ⟨⟨m.copyToX, false, fun _ => .copyToX⟩, by simp [decodeRows, arithCopyRows], rfl, rfl, 0, rfl, rfl⟩
  | copyFromX =>
    exact ⟨⟨m.copyFromX, false, fun _ => .copyFromX⟩, by simp [decodeRows, arithCopyRows], rfl, rfl, 0, rfl, rfl⟩
  | copyToY => exact ⟨⟨m.copyToY, false, fun _ => .copyToY⟩, by simp [decodeRows, arithCopyRows], rfl, rfl, 0, rfl, rfl⟩
  | copyFromY =>
    exact ⟨⟨m.copyFromY, false, fun _ => .copyFromY⟩, by simp [decodeRows, arithCopyRows], rfl, rfl, 0, rfl, rfl⟩
  | copyToSp =>
    exact ⟨⟨m.copyToSp, false, fun _ => .copyToSp⟩, by simp [decodeRows, arithCopyRows], rfl, rfl, 0, rfl, rfl⟩
  | copyFromSp =>
    exact ⟨⟨m.copyFromSp, false, fun _ => .copyFromSp⟩, by simp [decodeRows, arithCopyRows], rfl, rfl, 0, rfl, rfl⟩
  | jump op => exact ⟨⟨m.jump, true, .jump⟩, by simp [decodeRows, controlRows], rfl, rfl, op, rfl, rfl⟩
  | jumpIfEqual op =>
    exact ⟨⟨m.jumpIfEqual, true, .jumpIfEqual⟩, by simp [decodeRows, controlRows], rfl, rfl, op, rfl, rfl⟩
  | jumpIfNotEqual op =>
    exact ⟨⟨m.jumpIfNotEqual, true, .jumpIfNotEqual⟩, by simp [decodeRows, controlRows], rfl, rfl, op, rfl, rfl⟩
  | call op => exact ⟨⟨m.call, true, .call⟩, by simp [decodeRows, controlRows], rfl, rfl, op, rfl, rfl⟩
  | ret => exact ⟨⟨m.ret, false, fun _ => .ret⟩, by simp [decodeRows, controlRows], rfl, rfl, 0, rfl, rfl⟩
  | incX => exact ⟨⟨m.incX, false, fun _ => .incX⟩, by simp [decodeRows, indexStackRows], rfl, rfl, 0, rfl, rfl⟩
  | decX => exact ⟨⟨m.decX, false, fun _ => .decX⟩, by simp [decodeRows, indexStackRows], rfl, rfl, 0, rfl, rfl⟩
  | push => exact ⟨⟨m.push, false, fun _ => .push⟩, by simp [decodeRows, indexStackRows], rfl, rfl, 0, rfl, rfl⟩
  | pop => exact ⟨⟨m.pop, false, fun _ => .pop⟩, by simp [decodeRows, indexStackRows], rfl, rfl, 0, rfl, rfl⟩
  | int => exact ⟨⟨m.int, false, fun _ => .int⟩, by simp [decodeRows, systemRows], rfl, rfl, 0, rfl, rfl⟩
  | iRet => exact ⟨⟨m.iRet, false, fun _ => .iRet⟩, by simp [decodeRows, systemRows], rfl, rfl, 0, rfl, rfl⟩
  | endRun => exact ⟨⟨m.endRun, false, fun _ => .endRun⟩, by simp [decodeRows, systemRows], rfl, rfl, 0, rfl, rfl⟩

/-- An instruction is well formed exactly when its operand words are words (R82). -/
theorem Instr.wellFormed_iff (n : Nat) (i : Instr) : i.wellFormed n = true ↔ ∀ w ∈ operandWords i, IsWord n w := by
  cases i <;> simp [Instr.wellFormed, operandWords]

end Sys2Proof
end

