-- ==== Sys2Proof/Laws/Step.lean ====
section
/-! SUPPORT. What the composed operations can leave, said once: a load into ac, a push, a pop, the dispatch, the return, the
fetch of an instruction, the timer check and the step. -/

namespace Sys2Proof.Machine

/-- The first part of a step touches count alone (R27, R90 part 1). -/
theorem State.countStep_eq (s : State) :
    s.countStep = { s with count := s.countedStep } := by
  unfold State.countStep State.countedStep
  split_ifs <;> rfl

@[simp] theorem State.countStep_ac (s : State) : s.countStep.ac = s.ac := by rw [State.countStep_eq]
@[simp] theorem State.countStep_x (s : State) : s.countStep.x = s.x := by rw [State.countStep_eq]
@[simp] theorem State.countStep_y (s : State) : s.countStep.y = s.y := by rw [State.countStep_eq]
@[simp] theorem State.countStep_sp (s : State) : s.countStep.sp = s.sp := by rw [State.countStep_eq]
@[simp] theorem State.countStep_pc (s : State) : s.countStep.pc = s.pc := by rw [State.countStep_eq]
@[simp] theorem State.countStep_ir (s : State) : s.countStep.ir = s.ir := by rw [State.countStep_eq]
@[simp] theorem State.countStep_timerLimit (s : State) : s.countStep.timerLimit = s.timerLimit := by rw [State.countStep_eq]
@[simp] theorem State.countStep_mode (s : State) : s.countStep.mode = s.mode := by rw [State.countStep_eq]
@[simp] theorem State.countStep_status (s : State) : s.countStep.status = s.status := by rw [State.countStep_eq]
@[simp] theorem State.countStep_out (s : State) : s.countStep.out = s.out := by rw [State.countStep_eq]
@[simp] theorem State.countStep_mem (s : State) : s.countStep.mem = s.mem := by rw [State.countStep_eq]
@[simp] theorem State.countStep_trace (s : State) : s.countStep.trace = s.trace := by rw [State.countStep_eq]
@[simp] theorem State.countStep_draws (s : State) : s.countStep.draws = s.draws := by rw [State.countStep_eq]
@[simp] theorem State.countStep_cfg (s : State) : s.countStep.cfg = s.cfg := by rw [State.countStep_eq]

@[simp] theorem State.countStep_count (s : State) :
    s.countStep.count = s.countedStep := by rw [State.countStep_eq]

@[simp] theorem State.countStep_accessFault (s : State) (pc0 : Int) (kind : AccessKind) (a : Int) :
    s.countStep.accessFault pc0 kind a = s.accessFault pc0 kind a :=
  State.accessFault_congr (State.countStep_mode s) (State.countStep_cfg s) _ _ _

/-- A load into ac (R117): stopped by its checks; failed in transport; or the stored word in ac. -/
theorem State.loadAc_next {s t : State} {pc0 a : Int} (h : (s.loadAc pc0 a).toOutcome = .next t) :
    (∃ o, s.accessFault pc0 .data a = some o ∧ t = s.endedWith o) ∨
    (s.accessFault pc0 .data a = none ∧ s.cfg.transportFallible = true ∧
      t = (s.request (.read a)).endedWith (.transportError (.read a))) ∨
    (s.accessFault pc0 .data a = none ∧ t = (s.request (.read a)).setAc (s.mem.read a.toNat)) := by
  unfold State.loadAc at h
  rcases s.load_cases pc0 .data a with ⟨o, ho, e⟩ | ⟨hn, hf, e⟩ | ⟨-, -, e⟩ | ⟨hn, e⟩ <;> rw [e] at h <;> simp at h
  · exact .inl ⟨o, ho, h.symm⟩
  · exact .inr (.inl ⟨hn, hf, h.symm⟩)
  · exact .inr (.inr ⟨hn, h.symm⟩)

/-- A push (R24): stopped by its checks, failed in transport, or done; sp is decremented in each. -/
theorem State.pushWord_cases (s : State) (pc0 v : Int) :
    (∃ o, s.accessFault pc0 .write s.addrPush = some o ∧
      s.pushWord pc0 v = .ended ((s.setSp s.addrPush).endedWith o)) ∨
    (s.accessFault pc0 .write s.addrPush = none ∧ s.cfg.transportFallible = true ∧ s.pushWord pc0 v =
      .ended (((s.setSp s.addrPush).request (.write s.addrPush v)).endedWith
        (.transportError (.write s.addrPush v)))) ∨
    (s.accessFault pc0 .write s.addrPush = none ∧ s.pushWord pc0 v =
      .ok () (((s.setSp s.addrPush).request (.write s.addrPush v)).setWord s.addrPush v)) := by
  have hc : (s.setSp s.addrPush).accessFault pc0 .write s.addrPush = s.accessFault pc0 .write s.addrPush :=
    State.accessFault_congr rfl rfl _ _ _
  unfold State.pushWord
  rw [← hc]
  exact State.store_cases _ pc0 s.addrPush v

/-- A pop (R24): stopped by its checks, failed in transport, hanging, or done; sp is incremented only if done. -/
theorem State.popWord_cases (s : State) (pc0 : Int) :
    (∃ o, s.accessFault pc0 .data s.sp = some o ∧ s.popWord pc0 = .ended (s.endedWith o)) ∨
    (s.accessFault pc0 .data s.sp = none ∧ s.cfg.transportFallible = true ∧
      s.popWord pc0 = .ended ((s.request (.read s.sp)).endedWith (.transportError (.read s.sp)))) ∨
    (s.accessFault pc0 .data s.sp = none ∧ s.popWord pc0 = .stuck (.readUnanswered s.sp)) ∨
    (s.accessFault pc0 .data s.sp = none ∧ s.popWord pc0 =
      .ok (s.mem.read s.sp.toNat) ((s.request (.read s.sp)).setSp (s.cfg.wrap (s.sp + 1)))) := by
  unfold State.popWord State.addrPop
  rcases s.load_cases pc0 .data s.sp with ⟨o, ho, e⟩ | ⟨hn, hf, e⟩ | ⟨hn, -, e⟩ | ⟨hn, e⟩ <;> rw [e]
  · exact .inl ⟨o, ho, rfl⟩
  · exact .inr (.inl ⟨hn, hf, rfl⟩)
  · exact .inr (.inr (.inl ⟨hn, rfl⟩))
  · exact .inr (.inr (.inr ⟨hn, rfl⟩))

/-- The kernel state in which a dispatch makes its first Write (R212 parts 1 to 4). -/
def State.dispatchBegun (s : State) (kind : InterruptKind) : State :=
  { s with
    count := if kind = .timer then 0 else s.count
    mode := .kernel
    sp := s.cfg.wrap (s.cfg.kstackTop - 1) }

/-- The kernel state in which a dispatch makes its second Write (R212 parts 5 and 6). -/
def State.dispatchHalf (s : State) (kind : InterruptKind) : State :=
  { s.dispatchBegun kind with
    sp := s.cfg.wrap (s.cfg.wrap (s.cfg.kstackTop - 1) - 1)
    mem := s.mem.write (s.cfg.wrap (s.cfg.kstackTop - 1)).toNat s.sp
    trace := s.trace ++ [.write (s.cfg.wrap (s.cfg.kstackTop - 1)) s.sp] }

/-- The state after a dispatch (R212). -/
def State.dispatched (s : State) (kind : InterruptKind) : State :=
  { s.dispatchHalf kind with
    pc := s.handlerBase kind
    mem := (s.dispatchHalf kind).mem.write (s.cfg.wrap (s.cfg.wrap (s.cfg.kstackTop - 1) - 1)).toNat s.pc
    trace := (s.dispatchHalf kind).trace ++ [.write (s.cfg.wrap (s.cfg.wrap (s.cfg.kstackTop - 1) - 1)) s.pc] }

/-- All a dispatch can do: complete; or have its first or its second Write stopped by the checks or failed in transport. In a
well-formed configuration the checks stop neither. -/
theorem State.interruptDispatch_cases (s : State) (pc0 : Int) (kind : InterruptKind) :
    (s.interruptDispatch pc0 kind = .ok () (s.dispatched kind) ∧
      (s.dispatchBegun kind).accessFault pc0 .write (s.cfg.wrap (s.cfg.kstackTop - 1)) = none ∧
      (s.dispatchBegun kind).accessFault pc0 .write (s.cfg.wrap (s.cfg.wrap (s.cfg.kstackTop - 1) - 1)) = none) ∨
    (∃ o, s.interruptDispatch pc0 kind = .ended ((s.dispatchBegun kind).endedWith o) ∧
      (s.dispatchBegun kind).accessFault pc0 .write (s.cfg.wrap (s.cfg.kstackTop - 1)) = some o) ∨
    (∃ r o, r = .write (s.cfg.wrap (s.cfg.kstackTop - 1)) s.sp ∧ o = .transportError r ∧ s.cfg.transportFallible = true ∧
      s.interruptDispatch pc0 kind = .ended (((s.dispatchBegun kind).request r).endedWith o) ∧
      (s.dispatchBegun kind).accessFault pc0 .write (s.cfg.wrap (s.cfg.kstackTop - 1)) = none) ∨
    (∃ o, s.interruptDispatch pc0 kind = .ended ((s.dispatchHalf kind).endedWith o) ∧
      (s.dispatchBegun kind).accessFault pc0 .write (s.cfg.wrap (s.cfg.kstackTop - 1)) = none ∧
      (s.dispatchBegun kind).accessFault pc0 .write (s.cfg.wrap (s.cfg.wrap (s.cfg.kstackTop - 1) - 1)) = some o) ∨
    (∃ r o, r = .write (s.cfg.wrap (s.cfg.wrap (s.cfg.kstackTop - 1) - 1)) s.pc ∧ o = .transportError r ∧
      s.cfg.transportFallible = true ∧
      s.interruptDispatch pc0 kind = .ended (((s.dispatchHalf kind).request r).endedWith o) ∧
      (s.dispatchBegun kind).accessFault pc0 .write (s.cfg.wrap (s.cfg.kstackTop - 1)) = none ∧
      (s.dispatchBegun kind).accessFault pc0 .write (s.cfg.wrap (s.cfg.wrap (s.cfg.kstackTop - 1) - 1)) = none) := by
  have e : s.interruptDispatch pc0 kind =
      ((s.dispatchBegun kind).store pc0 (s.cfg.wrap (s.cfg.kstackTop - 1)) s.sp).bind fun _ t => t.enterHandler pc0 kind := by
    cases kind <;> rfl
  have half : ((s.dispatchBegun kind).request (.write (s.cfg.wrap (s.cfg.kstackTop - 1)) s.sp)).setWord
      (s.cfg.wrap (s.cfg.kstackTop - 1)) s.sp = { s.dispatchHalf kind with sp := s.cfg.wrap (s.cfg.kstackTop - 1) } := rfl
  rw [e]
  rcases State.store_cases (s.dispatchBegun kind) pc0 (s.cfg.wrap (s.cfg.kstackTop - 1)) s.sp with
    ⟨o, ho, h⟩ | ⟨hn, hf, h⟩ | ⟨hn, h⟩
  · rw [h]; exact .inr (.inl ⟨o, rfl, ho⟩)
  · rw [h]; exact .inr (.inr (.inl ⟨_, _, rfl, rfl, hf, rfl, hn⟩))
  · rw [h, Access.bind_ok, half]
    have h2 : ({ s.dispatchHalf kind with sp := s.cfg.wrap (s.cfg.kstackTop - 1) } : State).enterHandler pc0 kind =
        ((s.dispatchHalf kind).store pc0 (s.cfg.wrap (s.cfg.wrap (s.cfg.kstackTop - 1) - 1)) s.pc).bind
          fun _ t => .ok () (t.setPc (t.handlerBase kind)) := rfl
    have hc : (s.dispatchHalf kind).accessFault pc0 .write (s.cfg.wrap (s.cfg.wrap (s.cfg.kstackTop - 1) - 1)) =
        (s.dispatchBegun kind).accessFault pc0 .write (s.cfg.wrap (s.cfg.wrap (s.cfg.kstackTop - 1) - 1)) :=
      State.accessFault_congr rfl rfl _ _ _
    rw [h2]
    rcases State.store_cases (s.dispatchHalf kind) pc0 (s.cfg.wrap (s.cfg.wrap (s.cfg.kstackTop - 1) - 1)) s.pc with
      ⟨o, ho, h⟩ | ⟨hm, hf, h⟩ | ⟨hm, h⟩
    · rw [h]; exact .inr (.inr (.inr (.inl ⟨o, rfl, hn, hc ▸ ho⟩)))
    · rw [h]; exact .inr (.inr (.inr (.inr ⟨_, _, rfl, rfl, hf, rfl, hn, hc ▸ hm⟩)))
    · rw [h]; exact .inl ⟨by cases kind <;> rfl, hn, hc ▸ hm⟩

/-- All a return from an interrupt can leave (R191): its first read stopped or failed, nothing changed; its second read
stopped or failed, pc and sp popped; or pc, sp and User mode restored. -/
theorem State.interruptReturn_next {s t : State} {pc0 : Int} (h : (s.interruptReturn pc0).toOutcome = .next t) :
    (∃ o, s.accessFault pc0 .data s.sp = some o ∧ t = s.endedWith o) ∨
    (s.accessFault pc0 .data s.sp = none ∧ s.cfg.transportFallible = true ∧
      t = (s.request (.read s.sp)).endedWith (.transportError (.read s.sp))) ∨
    (s.accessFault pc0 .data s.sp = none ∧ ∃ u : State,
      u = { s with pc := s.mem.read s.sp.toNat, sp := s.cfg.wrap (s.sp + 1), trace := s.trace ++ [.read s.sp] } ∧
      ((∃ o, s.accessFault pc0 .data (s.cfg.wrap (s.sp + 1)) = some o ∧ t = u.endedWith o) ∨
       (s.accessFault pc0 .data (s.cfg.wrap (s.sp + 1)) = none ∧ s.cfg.transportFallible = true ∧
          t = (u.request (.read (s.cfg.wrap (s.sp + 1)))).endedWith (.transportError (.read (s.cfg.wrap (s.sp + 1))))) ∨
       (s.accessFault pc0 .data (s.cfg.wrap (s.sp + 1)) = none ∧
          t = ((u.request (.read (s.cfg.wrap (s.sp + 1)))).setSp (s.mem.read (s.cfg.wrap (s.sp + 1)).toNat)).setMode .user))) := by
  unfold State.interruptReturn State.addrPop at h
  rcases s.load_cases pc0 .data s.sp with ⟨o, ho, e⟩ | ⟨hn, hf, e⟩ | ⟨hn, -, e⟩ | ⟨hn, e⟩ <;> rw [e] at h
  · simp at h; exact .inl ⟨o, ho, h.symm⟩
  · simp at h; exact .inr (.inl ⟨hn, hf, h.symm⟩)
  · simp at h
  · refine .inr (.inr ⟨hn, _, rfl, ?_⟩)
    rw [Access.bind_ok] at h
    have hc : (((s.request (.read s.sp)).setSp (s.cfg.wrap (s.sp + 1))).setPc (s.mem.read s.sp.toNat)).accessFault pc0 .data
        (s.cfg.wrap (s.sp + 1)) = s.accessFault pc0 .data (s.cfg.wrap (s.sp + 1)) := State.accessFault_congr rfl rfl _ _ _
    rcases State.load_cases (((s.request (.read s.sp)).setSp (s.cfg.wrap (s.sp + 1))).setPc (s.mem.read s.sp.toNat)) pc0 .data
      (s.cfg.wrap (s.sp + 1)) with ⟨o, ho, e⟩ | ⟨hn, hf, e⟩ | ⟨hn, -, e⟩ | ⟨hn, e⟩ <;> simp only [State.request_sp,
        State.request_cfg, State.setPc_sp, State.setSp_sp] at h <;> rw [e] at h
    · simp at h; exact .inl ⟨o, hc ▸ ho, h.symm⟩
    · simp at h; exact .inr (.inl ⟨hc ▸ hn, hf, h.symm⟩)
    · simp at h
    · simp at h; exact .inr (.inr ⟨hc ▸ hn, h.symm⟩)

/-- All a step can do (R90), on a running machine: the fetch or decode ends the run or hangs; or the instruction is executed
and the timer is checked. -/
theorem step_cases {s : State} {r : Host.Outcome State Fault Refusal} (hs : s.status = .running) (h : step s = r) :
    (∃ t, s.countStep.fetchInstr s.pc = .ended t ∧ r = .next t) ∨
    (∃ f, s.countStep.fetchInstr s.pc = .stuck f ∧ r = .fault f) ∨
    (∃ i t, s.countStep.fetchInstr s.pc = .ok i t ∧
      ((∃ u, exec i t = .next u ∧ r = u.timerCheck s.pc) ∨ (∃ f, exec i t = .fault f ∧ r = .fault f) ∨
        ∃ q, exec i t = .refused q ∧ r = .refused q)) := by
  unfold step at h
  rw [if_pos hs] at h
  unfold State.stepRunning at h
  cases hf : s.countStep.fetchInstr s.pc with
  | ended t => rw [hf] at h; exact .inl ⟨t, rfl, h.symm⟩
  | stuck f => rw [hf] at h; exact .inr (.inl ⟨f, rfl, h.symm⟩)
  | ok i t =>
    rw [hf] at h
    refine .inr (.inr ⟨i, t, rfl, ?_⟩)
    cases he : exec i t with
    | next u => simp only [he] at h; exact .inl ⟨u, rfl, h.symm⟩
    | fault f => simp only [he] at h; exact .inr (.inl ⟨f, rfl, h.symm⟩)
    | refused q => simp only [he] at h; exact .inr (.inr ⟨q, rfl, h.symm⟩)

/-- A step that answers a next state was asked of a running machine (R33, R91). -/
theorem running_of_step {s t : State} (h : step s = .next t) : s.status = .running := by
  unfold step at h
  split_ifs at h with hs
  exact hs

/-- All the fetch of an instruction can do (R81, R87, R90, R193): the opcode fetch is stopped, fails or hangs; the word is no
opcode; it is a format Z instruction; or it is a format O instruction, whose operand fetch is stopped, fails, hangs or
answers the operand. -/
theorem State.fetchInstr_cases (s : State) (pc0 : Int) :
    (∃ o, s.accessFault pc0 .fetch s.pc = some o ∧ s.fetchInstr pc0 = .ended (s.endedWith o)) ∨
    (s.accessFault pc0 .fetch s.pc = none ∧ s.cfg.transportFallible = true ∧
      s.fetchInstr pc0 = .ended ((s.request (.read s.pc)).endedWith (.transportError (.read s.pc)))) ∨
    (s.accessFault pc0 .fetch s.pc = none ∧ s.cfg.transportMayHang = true ∧
      s.fetchInstr pc0 = .stuck (.readUnanswered s.pc)) ∨
    (s.accessFault pc0 .fetch s.pc = none ∧ ∃ u : State,
      u = { s with ir := s.mem.read s.pc.toNat, pc := s.cfg.wrap (s.pc + 1), trace := s.trace ++ [.read s.pc] } ∧
      s.fetchInstr pc0 = u.decodeIr pc0 ∧
      ((decodeOpcode s.cfg.opcodeMap u.ir = none ∧ u.decodeIr pc0 = .ended (u.endedWith (.invalidOpcode u.ir pc0))) ∨
       ∃ r, decodeOpcode s.cfg.opcodeMap u.ir = some r ∧
        ((r.hasOperand = false ∧ u.decodeIr pc0 = .ok (r.build 0) u) ∨
         (r.hasOperand = true ∧
          ((∃ o, s.accessFault pc0 .operand u.pc = some o ∧ u.decodeIr pc0 = .ended (u.endedWith o)) ∨
           (s.accessFault pc0 .operand u.pc = none ∧ s.cfg.transportFallible = true ∧
              u.decodeIr pc0 = .ended ((u.request (.read u.pc)).endedWith (.transportError (.read u.pc)))) ∨
           (s.accessFault pc0 .operand u.pc = none ∧ s.cfg.transportMayHang = true ∧
              u.decodeIr pc0 = .stuck (.readUnanswered u.pc)) ∨
           (s.accessFault pc0 .operand u.pc = none ∧ u.decodeIr pc0 =
              .ok (r.build (s.mem.read u.pc.toNat)) { u with pc := u.cfg.wrap (u.pc + 1), trace := u.trace ++ [.read u.pc] })))))) := by
  unfold State.fetchInstr State.fetchWord
  rcases s.load_cases pc0 .fetch s.pc with ⟨o, ho, e⟩ | ⟨hn, hf, e⟩ | ⟨hn, hf, e⟩ | ⟨hn, e⟩ <;> rw [e]
  · exact .inl ⟨o, ho, rfl⟩
  · exact .inr (.inl ⟨hn, hf, rfl⟩)
  · exact .inr (.inr (.inl ⟨hn, hf, rfl⟩))
  · refine .inr (.inr (.inr ⟨hn, _, rfl, rfl, ?_⟩))
    generalize hu : ({ s with ir := s.mem.read s.pc.toNat, pc := s.cfg.wrap (s.pc + 1), trace := s.trace ++ [.read s.pc] } : State) = u
    have hcfg : u.cfg = s.cfg := by subst hu; rfl
    have hmem : u.mem = s.mem := by subst hu; rfl
    have hc : u.accessFault pc0 .operand u.pc = s.accessFault pc0 .operand u.pc :=
      State.accessFault_congr (by subst hu; rfl) hcfg _ _ _
    unfold State.decodeIr
    rw [hcfg]
    cases hd : decodeOpcode s.cfg.opcodeMap u.ir with
    | none => exact .inl ⟨rfl, rfl⟩
    | some r =>
      refine .inr ⟨r, rfl, ?_⟩
      cases hh : r.hasOperand with
      | false => exact .inl ⟨rfl, by simp [hh]⟩
      | true =>
        refine .inr ⟨rfl, ?_⟩
        simp only [hh, if_true, State.fetchWord]
        rw [← hc, ← hcfg, ← hmem]
        rcases u.load_cases pc0 .operand u.pc with ⟨o, ho, e⟩ | ⟨hn, hf, e⟩ | ⟨hn, hf, e⟩ | ⟨hn, e⟩ <;> rw [e]
        · exact .inl ⟨o, ho, rfl⟩
        · exact .inr (.inl ⟨hn, hf, rfl⟩)
        · exact .inr (.inr (.inl ⟨hn, hf, rfl⟩))
        · exact .inr (.inr (.inr ⟨hn, rfl⟩))

end Sys2Proof.Machine
end

