-- ==== Sys2Proof/Laws/Word.lean ====
section
/-! SUPPORT. `wrap` (00_scope.md R11): it answers a word, leaves a word alone, forgets only multiples of 2^n, and is the two's
complement reading of the low bits (R10). -/

namespace Sys2Proof

theorem two_pow_half {n : Nat} (h : 0 < n) : (2 : Int) ^ n = 2 * 2 ^ (n - 1) := by
  obtain ⟨k, rfl⟩ := Nat.exists_eq_add_of_lt h
  rw [show 0 + k + 1 = k + 1 from by omega, Nat.add_sub_cancel, pow_succ, mul_comm]

theorem two_pow_pos' (n : Nat) : (0 : Int) < 2 ^ n := by positivity

/-- `wrap` answers a word (R11). -/
theorem wrap_isWord {n : Nat} (h : 0 < n) (v : Int) : IsWord n (wrap n v) := by
  have h1 := Int.emod_nonneg (v + 2 ^ (n - 1)) (two_pow_pos' n).ne'
  have h2 := Int.emod_lt_of_pos (v + 2 ^ (n - 1)) (two_pow_pos' n)
  have h3 := two_pow_half h
  simp only [wrap, IsWord]
  omega

/-- `wrap` leaves a word alone (R11). -/
theorem wrap_of_isWord {n : Nat} (h : 0 < n) {v : Int} (hv : IsWord n v) : wrap n v = v := by
  have h3 := two_pow_half h
  unfold wrap
  rw [Int.emod_eq_of_lt (by have := hv.1; omega) (by have := hv.2; omega)]
  omega

/-- `wrap` differs from its argument by a multiple of 2^n (R11). -/
theorem dvd_wrap_sub (n : Nat) (v : Int) : (2 : Int) ^ n ∣ wrap n v - v := by
  have := Int.emod_add_mul_ediv (v + 2 ^ (n - 1)) (2 ^ n)
  exact ⟨-((v + 2 ^ (n - 1)) / 2 ^ n), by rw [wrap, mul_neg]; omega⟩

/-- Integers that differ by a multiple of 2^n wrap to the same word. -/
theorem wrap_congr {n : Nat} {v w : Int} (h : (2 : Int) ^ n ∣ v - w) : wrap n v = wrap n w := by
  unfold wrap
  rw [Int.emod_eq_emod_iff_emod_sub_eq_zero.mpr]
  rw [show v + 2 ^ (n - 1) - (w + 2 ^ (n - 1)) = v - w by ring]
  exact Int.emod_eq_zero_of_dvd h

/-- A wrap inside a sum is forgotten by the wrap outside. -/
theorem wrap_wrap_add (n : Nat) (v w : Int) : wrap n (wrap n v + w) = wrap n (v + w) :=
  wrap_congr (by simpa using dvd_wrap_sub n v)

/-- A wrap inside a difference is forgotten by the wrap outside. -/
theorem wrap_wrap_sub (n : Nat) (v w : Int) : wrap n (wrap n v - w) = wrap n (v - w) :=
  wrap_wrap_add n v (-w)

/-- `wrap` is the two's complement reading of the low bits (R10). -/
theorem toInt_ofInt_eq_wrap {n : Nat} (h : 0 < n) (v : Int) : (BitVec.ofInt n v).toInt = wrap n v := by
  have e : BitVec.ofInt n v = BitVec.ofInt n (wrap n v) := by
    apply BitVec.eq_of_toInt_eq
    rw [BitVec.toInt_ofInt, BitVec.toInt_ofInt]
    have := dvd_wrap_sub n v
    rw [Int.bmod_eq_bmod_iff_bmod_sub_eq_zero, ← Int.dvd_iff_bmod_eq_zero, ← dvd_neg]
    push_cast
    simpa using this
  rw [e, BitVec.toInt_ofInt_eq_self h]
  · exact (wrap_isWord h v).1
  · exact (wrap_isWord h v).2

/-- A word that differs from an exact result by a multiple of 2^n is its wrap. -/
theorem eq_wrap_of_dvd {n : Nat} (h : 0 < n) {v e : Int} (hv : IsWord n v) (hd : (2 : Int) ^ n ∣ v - e) : v = wrap n e := by
  rw [← wrap_congr hd, wrap_of_isWord h hv]

/-- At the width of a well-formed configuration. -/
theorem Config.WF.wordBits_pos {c : Config} (h : c.WF) : 0 < c.wordBits := by have := h.2.2.2.2.2.2.1; omega

/-- In a well-formed configuration `wrap` answers a word. -/
theorem Config.WF.wrap_isWord {c : Config} (h : c.WF) (v : Int) : c.IsWord (c.wrap v) :=
  Sys2Proof.wrap_isWord h.wordBits_pos v

/-- In a well-formed configuration `wrap` leaves a word alone. -/
theorem Config.WF.wrap_eq {c : Config} (h : c.WF) {v : Int} (hv : c.IsWord v) : c.wrap v = v :=
  wrap_of_isWord h.wordBits_pos hv

/-- An address of the store is a word (R9). -/
theorem Config.WF.isWord_of_address {c : Config} (h : c.WF) {a : Int} (h0 : 0 ≤ a) (hn : a ≤ (c.memWords : Int)) : c.IsWord a := by
  have := h.2.2.2.2.1
  unfold Config.MemWordsOk at this
  have := two_pow_pos' (c.wordBits - 1)
  exact ⟨by omega, by omega⟩

/-- In a well-formed configuration the two kernel stack addresses of a dispatch need no wrap (R9, R212). -/
theorem Config.WF.wrap_kstackTop {c : Config} (h : c.WF) :
    c.wrap (c.kstackTop - 1) = c.kstackTop - 1 ∧ c.wrap (c.kstackTop - 1 - 1) = c.kstackTop - 2 := by
  obtain ⟨h1, h2, h3⟩ := h.2.2.2.1
  rw [h.wrap_eq (h.isWord_of_address (by omega) (by omega)), h.wrap_eq (h.isWord_of_address (by omega) (by omega))]
  omega

end Sys2Proof
end

