-- ==== Sys2Proof/Laws/Exec.lean ====
section
/-! SUPPORT. What the execute phase of each instruction can leave, said once: every claim about all instructions is derived
from `exec_next`. -/

namespace Sys2Proof.Machine

/-- The run ended at a data read of address `a` made in state `s`: stopped by the checks, or failed in transport. -/
def ReadStopped (s : State) (pc0 a : Int) (t : State) : Prop :=
  (∃ o, s.accessFault pc0 .data a = some o ∧ t = s.endedWith o) ∨
  (s.accessFault pc0 .data a = none ∧ s.cfg.transportFallible = true ∧
    t = (s.request (.read a)).endedWith (.transportError (.read a)))

/-- The run ended at a write of `v` to address `a` made in state `s`: stopped by the checks, or failed in transport. -/
def WriteStopped (s : State) (pc0 a v : Int) (t : State) : Prop :=
  (∃ o, s.accessFault pc0 .write a = some o ∧ t = s.endedWith o) ∨
  (s.accessFault pc0 .write a = none ∧ s.cfg.transportFallible = true ∧
    t = (s.request (.write a v)).endedWith (.transportError (.write a v)))

/-- A load of address `a` into ac: ended at its read, or done. -/
def LoadLeaves (s : State) (pc0 a : Int) (t : State) : Prop :=
  ReadStopped s pc0 a t ∨
  (s.accessFault pc0 .data a = none ∧ t = (s.request (.read a)).setAc (s.mem.read a.toNat))

/-- The software interrupt's dispatch: done, or ended at one of its two writes. -/
def DispatchLeaves (s : State) (pc0 : Int) (kind : InterruptKind) (t : State) : Prop :=
  (t = s.dispatched kind ∧
    (s.dispatchBegun kind).accessFault pc0 .write (s.cfg.wrap (s.cfg.kstackTop - 1)) = none ∧
    (s.dispatchBegun kind).accessFault pc0 .write (s.cfg.wrap (s.cfg.wrap (s.cfg.kstackTop - 1) - 1)) = none) ∨
  WriteStopped (s.dispatchBegun kind) pc0 (s.cfg.wrap (s.cfg.kstackTop - 1)) s.sp t ∨
  ((s.dispatchBegun kind).accessFault pc0 .write (s.cfg.wrap (s.cfg.kstackTop - 1)) = none ∧
    WriteStopped (s.dispatchHalf kind) pc0 (s.cfg.wrap (s.cfg.wrap (s.cfg.kstackTop - 1) - 1)) s.pc t)

/-- The state an IRet is in after its first read. -/
def State.returnHalf (s : State) : State :=
  { s with pc := s.mem.read s.sp.toNat, sp := s.cfg.wrap (s.sp + 1), trace := s.trace ++ [.read s.sp] }

/-- The states the execute phase of an instruction can leave. -/
def ExecLeaves (s t : State) : Instr → Prop
  | .loadImm op => t = s.setAc op
  | .loadAddr op => LoadLeaves s s.pc0O op t
  | .loadInd op =>
    ReadStopped s s.pc0O op t ∨
    (s.accessFault s.pc0O .data op = none ∧
      LoadLeaves (s.request (.read op)) s.pc0O (s.mem.read op.toNat) t)
  | .loadIdxX op => LoadLeaves s s.pc0O (s.addrIdxX op) t
  | .loadIdxY op => LoadLeaves s s.pc0O (s.addrIdxY op) t
  | .loadSpX => LoadLeaves s s.pc0Z s.addrSpX t
  | .store op =>
    WriteStopped s s.pc0O op s.ac t ∨
    (s.accessFault s.pc0O .write op = none ∧ t = (s.request (.write op s.ac)).setWord op s.ac)
  | .get => t = (s.setAc s.draw).countDraw
  | .put op => t = s.emit (portEvent op s.ac)
  | .addX => t = s.setAc (s.cfg.wrap (s.ac + s.x))
  | .addY => t = s.setAc (s.cfg.wrap (s.ac + s.y))
  | .subX => t = s.setAc (s.cfg.wrap (s.ac - s.x))
  | .subY => t = s.setAc (s.cfg.wrap (s.ac - s.y))
  | .copyToX => t = s.setX s.ac
  | .copyFromX => t = s.setAc s.x
  | .copyToY => t = s.setY s.ac
  | .copyFromY => t = s.setAc s.y
  | .copyToSp => t = s.setSp s.ac
  | .copyFromSp => t = s.setAc s.sp
  | .jump op => t = s.setPc op
  | .jumpIfEqual op => t = if s.acIsZero then s.setPc op else s
  | .jumpIfNotEqual op => t = if s.acIsZero then s else s.setPc op
  | .call op =>
    WriteStopped (s.setSp s.addrPush) s.pc0O s.addrPush s.pc t ∨
    (s.accessFault s.pc0O .write s.addrPush = none ∧
      t = (((s.setSp s.addrPush).request (.write s.addrPush s.pc)).setWord s.addrPush s.pc).setPc op)
  | .ret =>
    ReadStopped s s.pc0Z s.sp t ∨
    (s.accessFault s.pc0Z .data s.sp = none ∧
      t = ((s.request (.read s.sp)).setSp (s.cfg.wrap (s.sp + 1))).setPc (s.mem.read s.sp.toNat))
  | .incX => t = s.setX (s.cfg.wrap (s.x + 1))
  | .decX => t = s.setX (s.cfg.wrap (s.x - 1))
  | .push =>
    WriteStopped (s.setSp s.addrPush) s.pc0Z s.addrPush s.ac t ∨
    (s.accessFault s.pc0Z .write s.addrPush = none ∧
      t = ((s.setSp s.addrPush).request (.write s.addrPush s.ac)).setWord s.addrPush s.ac)
  | .pop =>
    ReadStopped s s.pc0Z s.sp t ∨
    (s.accessFault s.pc0Z .data s.sp = none ∧
      t = ((s.request (.read s.sp)).setSp (s.cfg.wrap (s.sp + 1))).setAc (s.mem.read s.sp.toNat))
  | .int =>
    (s.mode = .user ∧ DispatchLeaves s s.pc0Z .software t) ∨
    (s.mode = .kernel ∧ t = s.kernelInt s.pc0Z s.cfg.kintAction)
  | .iRet =>
    ReadStopped s s.pc0Z s.sp t ∨
    (s.accessFault s.pc0Z .data s.sp = none ∧
      (ReadStopped s.returnHalf s.pc0Z (s.cfg.wrap (s.sp + 1)) t ∨
       (s.accessFault s.pc0Z .data (s.cfg.wrap (s.sp + 1)) = none ∧
         t = ((s.returnHalf.request (.read (s.cfg.wrap (s.sp + 1)))).setSp
           (s.mem.read (s.cfg.wrap (s.sp + 1)).toNat)).setMode .user)))
  | .endRun => t = s.endRun .halted

theorem State.loadAc_leaves {s t : State} {pc0 a : Int} (h : (s.loadAc pc0 a).toOutcome = .next t) :
    LoadLeaves s pc0 a t := by
  rcases State.loadAc_next h with h | h | h
  · exact .inl (.inl h)
  · exact .inl (.inr h)
  · exact .inr h

/-- All a dispatch can leave. -/
theorem State.dispatch_leaves {s t : State} {pc0 : Int} {kind : InterruptKind}
    (h : (s.interruptDispatch pc0 kind).toOutcome = .next t) : DispatchLeaves s pc0 kind t := by
  rcases s.interruptDispatch_cases pc0 kind with ⟨e, h1, h2⟩ | ⟨o, e, ho⟩ | ⟨r, o, hr, ho, hf, e, hn⟩ | ⟨o, e, hn, ho⟩ |
    ⟨r, o, hr, ho, hf, e, hn, hm⟩ <;> rw [e] at h <;> simp at h
  · exact .inl ⟨h.symm, h1, h2⟩
  · exact .inr (.inl (.inl ⟨o, ho, h.symm⟩))
  · subst hr ho; exact .inr (.inl (.inr ⟨hn, hf, h.symm⟩))
  · exact .inr (.inr ⟨hn, .inl ⟨o, by rw [← ho]; exact State.accessFault_congr rfl rfl _ _ _, h.symm⟩⟩)
  · subst hr ho
    exact .inr (.inr ⟨hn, .inr ⟨by rw [← hm]; exact State.accessFault_congr rfl rfl _ _ _, hf, h.symm⟩⟩)

/-- Said once: all the execute phase of an instruction can leave. -/
theorem exec_next {i : Instr} {s t : State} (h : exec i s = .next t) : ExecLeaves s t i := by
  have next_eq {a : State} (h : (Host.Outcome.next a : Host.Outcome State Fault Refusal) = .next t) : t = a := by
    cases h; rfl
  cases i with
  | loadAddr op => exact State.loadAc_leaves h
  | loadIdxX op => exact State.loadAc_leaves h
  | loadIdxY op => exact State.loadAc_leaves h
  | loadSpX => exact State.loadAc_leaves h
  | loadInd op =>
    simp only [exec, execLoadInd, addrDirect] at h
    rcases s.load_cases s.pc0O .data op with ⟨o, ho, e⟩ | ⟨hn, hf, e⟩ | ⟨-, -, e⟩ | ⟨hn, e⟩ <;> rw [e] at h
    · exact .inl (.inl ⟨o, ho, next_eq h⟩)
    · exact .inl (.inr ⟨hn, hf, next_eq h⟩)
    · cases h
    · exact .inr ⟨hn, State.loadAc_leaves h⟩
  | store op =>
    simp only [exec, execStore, addrDirect] at h
    rcases s.store_cases s.pc0O op s.ac with ⟨o, ho, e⟩ | ⟨hn, hf, e⟩ | ⟨hn, e⟩ <;> rw [e] at h
    · exact .inl (.inl ⟨o, ho, next_eq h⟩)
    · exact .inl (.inr ⟨hn, hf, next_eq h⟩)
    · exact .inr ⟨hn, next_eq h⟩
  | call op =>
    simp only [exec, execCall] at h
    have hc : (s.setSp s.addrPush).accessFault s.pc0O .write s.addrPush = s.accessFault s.pc0O .write s.addrPush :=
      State.accessFault_congr rfl rfl _ _ _
    rcases s.pushWord_cases s.pc0O s.pc with ⟨o, ho, e⟩ | ⟨hn, hf, e⟩ | ⟨hn, e⟩ <;> rw [e] at h
    · exact .inl (.inl ⟨o, hc ▸ ho, next_eq h⟩)
    · exact .inl (.inr ⟨hc ▸ hn, hf, next_eq h⟩)
    · exact .inr ⟨hn, next_eq h⟩
  | push =>
    simp only [exec, execPush] at h
    have hc : (s.setSp s.addrPush).accessFault s.pc0Z .write s.addrPush = s.accessFault s.pc0Z .write s.addrPush :=
      State.accessFault_congr rfl rfl _ _ _
    rcases s.pushWord_cases s.pc0Z s.ac with ⟨o, ho, e⟩ | ⟨hn, hf, e⟩ | ⟨hn, e⟩ <;> rw [e] at h
    · exact .inl (.inl ⟨o, hc ▸ ho, next_eq h⟩)
    · exact .inl (.inr ⟨hc ▸ hn, hf, next_eq h⟩)
    · exact .inr ⟨hn, next_eq h⟩
  | ret =>
    simp only [exec, execRet] at h
    rcases s.popWord_cases s.pc0Z with ⟨o, ho, e⟩ | ⟨hn, hf, e⟩ | ⟨-, e⟩ | ⟨hn, e⟩ <;> rw [e] at h
    · exact .inl (.inl ⟨o, ho, next_eq h⟩)
    · exact .inl (.inr ⟨hn, hf, next_eq h⟩)
    · cases h
    · exact .inr ⟨hn, next_eq h⟩
  | pop =>
    simp only [exec, execPop] at h
    rcases s.popWord_cases s.pc0Z with ⟨o, ho, e⟩ | ⟨hn, hf, e⟩ | ⟨-, e⟩ | ⟨hn, e⟩ <;> rw [e] at h
    · exact .inl (.inl ⟨o, ho, next_eq h⟩)
    · exact .inl (.inr ⟨hn, hf, next_eq h⟩)
    · cases h
    · exact .inr ⟨hn, next_eq h⟩
  | int =>
    simp only [exec, execInt] at h
    cases hm : s.mode with
    | user => rw [hm] at h; exact .inl ⟨hm, State.dispatch_leaves h⟩
    | kernel => rw [hm] at h; exact .inr ⟨hm, next_eq h⟩
  | iRet =>
    rcases State.interruptReturn_next h with h | h | ⟨hn, u, rfl, h | h | h⟩
    · exact .inl (.inl h)
    · exact .inl (.inr h)
    · refine .inr ⟨hn, .inl (.inl ?_)⟩
      exact h.imp fun o h => ⟨by rw [← h.1]; exact State.accessFault_congr rfl rfl _ _ _, h.2⟩
    · refine .inr ⟨hn, .inl (.inr ⟨?_, h.2⟩)⟩
      rw [← h.1]; exact State.accessFault_congr rfl rfl _ _ _
    · exact .inr ⟨hn, .inr h⟩
  | loadImm op => exact next_eq h
  | get => exact next_eq h
  | put op => exact next_eq h
  | addX => exact next_eq h
  | addY => exact next_eq h
  | subX => exact next_eq h
  | subY => exact next_eq h
  | copyToX => exact next_eq h
  | copyFromX => exact next_eq h
  | copyToY => exact next_eq h
  | copyFromY => exact next_eq h
  | copyToSp => exact next_eq h
  | copyFromSp => exact next_eq h
  | jump op => exact next_eq h
  | jumpIfEqual op => exact next_eq h
  | jumpIfNotEqual op => exact next_eq h
  | incX => exact next_eq h
  | decX => exact next_eq h
  | endRun => exact next_eq h

/-- Said once: all a step that answers a next state has done (R90): its fetch or decode ended the run; or it executed an
instruction, and then took the timer interrupt exactly if that was due. -/
theorem step_next {s t : State} (h : step s = .next t) :
    s.status = .running ∧
    (s.countStep.fetchInstr s.pc = .ended t ∨
     ∃ i v u, s.countStep.fetchInstr s.pc = .ok i v ∧ exec i v = .next u ∧
       ((u.timerFires = false ∧ t = u) ∨ (u.timerFires = true ∧ DispatchLeaves u s.pc .timer t))) := by
  have hs := running_of_step h
  refine ⟨hs, ?_⟩
  rcases step_cases hs h with ⟨v, hf, e⟩ | ⟨f, -, e⟩ | ⟨i, v, hf, ⟨u, he, e⟩ | ⟨f, -, e⟩ | ⟨q, -, e⟩⟩
  · cases e; exact .inl hf
  · cases e
  · refine .inr ⟨i, v, u, hf, he, ?_⟩
    unfold State.timerCheck at e
    cases ht : u.timerFires with
    | false => rw [ht] at e; cases e; exact .inl ⟨rfl, rfl⟩
    | true => rw [ht] at e; exact .inr ⟨rfl, State.dispatch_leaves e.symm⟩
  · cases e
  · cases e

/-- The requests of a fetch: Reads that passed the checks. -/
def FetchReads (s : State) (pc0 : Int) (rs : List Request) : Prop :=
  ∀ r ∈ rs, ∃ a kind, r = .read a ∧ s.accessFault pc0 kind a = none

/-- A fetch that goes through (R81, R87): the words at pc passed the checks and decode to the instruction; ir, pc and the trace
alone change. -/
theorem State.fetchInstr_ok {s t : State} {pc0 : Int} {i : Instr} (h : s.fetchInstr pc0 = .ok i t) :
    s.accessFault pc0 .fetch s.pc = none ∧
    (i.hasOperand = true → s.accessFault pc0 .operand (s.cfg.wrap (s.pc + 1)) = none) ∧
    (∃ rest, decode s.cfg.opcodeMap [s.mem.read s.pc.toNat, s.mem.read (s.cfg.wrap (s.pc + 1)).toNat] = .ok (i, rest)) ∧
    t = { s with
      ir := s.mem.read s.pc.toNat
      pc := s.cfg.wrap (if i.hasOperand then s.pc + 2 else s.pc + 1)
      trace := s.trace ++ fetchRequests s i } := by
  rcases s.fetchInstr_cases pc0 with ⟨o, -, e⟩ | ⟨-, -, e⟩ | ⟨-, -, e⟩ | ⟨hn, u, rfl, e, ⟨-, e'⟩ | ⟨r, hd, ⟨hh, e'⟩ |
    ⟨hh, ⟨o, -, e'⟩ | ⟨-, -, e'⟩ | ⟨-, -, e'⟩ | ⟨hm, e'⟩⟩⟩⟩
  · rw [e] at h; cases h
  · rw [e] at h; cases h
  · rw [e] at h; cases h
  · rw [e, e'] at h; cases h
  · rw [e, e'] at h; cases h
    have hb := ((row_build (decodeOpcode_some hd).1 0).2.1).trans hh
    have hd : decodeOpcode s.cfg.opcodeMap (s.mem.read s.pc.toNat) = some r := hd
    refine ⟨hn, fun hi => ?_, ⟨_, by simp only [decode, hd, hh]; rfl⟩, by simp [fetchRequests, hb]⟩
    rw [hb] at hi; cases hi
  · rw [e, e'] at h; cases h
  · rw [e, e'] at h; cases h
  · rw [e, e'] at h; cases h
  · rw [e, e'] at h; cases h
    have hb := fun op => ((row_build (decodeOpcode_some hd).1 op).2.1).trans hh
    have hd : decodeOpcode s.cfg.opcodeMap (s.mem.read s.pc.toNat) = some r := hd
    refine ⟨hn, fun _ => hm, ⟨_, by simp only [decode, hd, hh]; rfl⟩, ?_⟩
    have hw : s.cfg.wrap (s.cfg.wrap (s.pc + 1) + 1) = s.cfg.wrap (s.pc + 2) := by
      rw [Config.wrap, Config.wrap, Config.wrap, wrap_wrap_add, Int.add_assoc]
      rfl
    simp [fetchRequests, hb, hw]

/-- The fetch's requests are Reads that passed the checks. -/
theorem State.fetchRequests_reads {s : State} {pc0 : Int} {i : Instr} (h : s.accessFault pc0 .fetch s.pc = none)
    (ho : i.hasOperand = true → s.accessFault pc0 .operand (s.cfg.wrap (s.pc + 1)) = none) :
    FetchReads s pc0 (fetchRequests s i) := by
  unfold fetchRequests
  cases hi : i.hasOperand with
  | false => simpa [FetchReads] using ⟨_, h⟩
  | true => simpa [FetchReads] using ⟨⟨_, h⟩, ⟨_, ho hi⟩⟩

/-- A fetch that ends the run changes ir, pc, the status and the trace alone. -/
theorem State.fetchInstr_ended {s t : State} {pc0 : Int} (h : s.fetchInstr pc0 = .ended t) :
    ∃ ir' pc' rs o, FetchReads s pc0 rs ∧ o ≠ .running ∧ (ir' = s.ir ∨ ir' = s.mem.read s.pc.toNat) ∧
      (pc' = s.pc ∨ pc' = s.cfg.wrap (s.pc + 1)) ∧
      t = { s with ir := ir', pc := pc', status := o, trace := s.trace ++ rs ++ [.terminate] } := by
  rcases s.fetchInstr_cases pc0 with ⟨o, ho, e⟩ | ⟨hn, -, e⟩ | ⟨-, -, e⟩ | ⟨hn, u, rfl, e, ⟨-, e'⟩ | ⟨r, -, ⟨-, e'⟩ |
    ⟨-, ⟨o, ho, e'⟩ | ⟨hm, -, e'⟩ | ⟨-, -, e'⟩ | ⟨hm, e'⟩⟩⟩⟩
  · rw [e] at h; cases h
    exact ⟨s.ir, s.pc, [], o, by simp [FetchReads], State.accessFault_ne_running ho, .inl rfl, .inl rfl,
      by simp [State.endedWith]⟩
  · rw [e] at h; cases h
    exact ⟨s.ir, s.pc, [.read s.pc], .transportError (.read s.pc), by simpa [FetchReads] using ⟨_, hn⟩, by simp, .inl rfl,
      .inl rfl, by simp [State.endedWith, State.request]⟩
  · rw [e] at h; cases h
  · rw [e, e'] at h; cases h
    exact ⟨s.mem.read s.pc.toNat, s.cfg.wrap (s.pc + 1), [.read s.pc], .invalidOpcode (s.mem.read s.pc.toNat) pc0,
      by simpa [FetchReads] using ⟨_, hn⟩, by simp, .inr rfl, .inr rfl, by simp [State.endedWith]⟩
  · rw [e, e'] at h; cases h
  · rw [e, e'] at h; cases h
    exact ⟨s.mem.read s.pc.toNat, s.cfg.wrap (s.pc + 1), [.read s.pc], o, by simpa [FetchReads] using ⟨_, hn⟩,
      State.accessFault_ne_running ho, .inr rfl, .inr rfl, by simp [State.endedWith]⟩
  · rw [e, e'] at h; cases h
    exact ⟨s.mem.read s.pc.toNat, s.cfg.wrap (s.pc + 1), [.read s.pc, .read (s.cfg.wrap (s.pc + 1))],
      .transportError (.read (s.cfg.wrap (s.pc + 1))),
      by simpa [FetchReads] using ⟨⟨_, hn⟩, ⟨_, hm⟩⟩, by simp, .inr rfl, .inr rfl,
      by simp [State.endedWith, State.request]⟩
  · rw [e, e'] at h; cases h
  · rw [e, e'] at h; cases h

/-- The fetch of a step that goes through hands `atExecute` to the execute phase (R90 parts 1 and 2). -/
theorem State.stepFetch_ok {s v : State} {i : Instr} (h : s.countStep.fetchInstr s.pc = .ok i v) :
    s.accessFault s.pc .fetch s.pc = none ∧
    (i.hasOperand = true → s.accessFault s.pc .operand (s.cfg.wrap (s.pc + 1)) = none) ∧
    (∃ rest, decode s.cfg.opcodeMap [s.mem.read s.pc.toNat, s.mem.read (s.cfg.wrap (s.pc + 1)).toNat] = .ok (i, rest)) ∧
    v = s.atExecute i := by
  rw [State.countStep_eq] at h
  exact State.fetchInstr_ok h

/-- The fetch of a step that ends the run: counted, with ir, pc, the status and the trace changed and nothing else. -/
theorem State.stepFetch_ended {s t : State} (h : s.countStep.fetchInstr s.pc = .ended t) :
    ∃ ir' pc' rs o, FetchReads s s.pc rs ∧ o ≠ .running ∧ (ir' = s.ir ∨ ir' = s.mem.read s.pc.toNat) ∧
      (pc' = s.pc ∨ pc' = s.cfg.wrap (s.pc + 1)) ∧
      t = { s with
        count := s.countedStep, ir := ir', pc := pc', status := o, trace := s.trace ++ rs ++ [.terminate] } := by
  rw [State.countStep_eq] at h
  exact State.fetchInstr_ended h

/-- The instruction a word of memory decodes to is well formed (R82). -/
theorem decode_wellFormed {m : OpcodeMap} {n : Nat} {w op : Int} {i : Instr} {rest : List Int} (ho : IsWord n op)
    (h : decode m [w, op] = .ok (i, rest)) : i.wellFormed n = true := by
  rw [Instr.wellFormed_iff]
  simp only [decode] at h
  cases hx : decodeOpcode m w with
  | none => rw [hx] at h; cases h
  | some r =>
    rw [hx] at h
    have hb := fun op => (row_build (decodeOpcode_some hx).1 op).2.2.1
    cases hh : r.hasOperand
    · simp only [hh, Bool.false_eq_true, if_false, Except.ok.injEq, Prod.mk.injEq] at h
      simp [← h.1, hb, hh]
    · simp only [hh, if_true, Except.ok.injEq, Prod.mk.injEq] at h
      simpa [← h.1, hb, hh] using ho

/-- A store of words reads as a word everywhere (R50). -/
theorem Memory.read_isWord {c : Config} {m : Memory} (h : ∀ p ∈ m.cells, c.IsWord p.2) (a : Nat) : c.IsWord (m.read a) := by
  obtain ⟨l⟩ := m
  induction l with
  | nil =>
    have := two_pow_pos' (c.wordBits - 1)
    exact ⟨by simp [Memory.unlisted], by simp [Memory.unlisted]⟩
  | cons d rest ih =>
    simp only [Memory.read, readCells] at ih ⊢
    split_ifs
    · exact h d (by simp)
    · exact ih fun p hp => h p (by simp [hp])

/-- Writing a word keeps a store of words one (R50, R57). -/
theorem Memory.write_fits {c : Config} {m : Memory} (h : ∀ p ∈ m.cells, c.IsWord p.2) (a : Nat) {v : Int} (hv : c.IsWord v) :
    ∀ p ∈ (m.write a v).cells, c.IsWord p.2 := by
  intro p hp
  rcases mem_writeCells hp with hp | ⟨rfl, -⟩
  · exact h p hp
  · exact hv

end Sys2Proof.Machine
end

