-- ==== Sys2Proof/Laws/PerInstr.lean ====
section
/-! SUPPORT. The family `Words` of LAWS.json: what holds of every instruction as syntax, one lemma per constructor. -/

namespace Sys2Proof.Laws.Words

/-- Under every map the instruction's words are its opcode word and then its operand words, as many as its length says; the
row the map has for it builds it back from its operand word (30_encoding.md R80, R83, R84, R87). -/
def Statement (i : Instr) : Prop :=
  ∀ m : OpcodeMap, (encode m i).length = i.length ∧ (encode m i).head? = some (opcodeOf m i) ∧
    ∃ r ∈ decodeRows m, r.value = opcodeOf m i ∧ r.hasOperand = i.hasOperand ∧ r.build ((operandWords i).headD 0) = i

theorem loadImm (op : Int) : Statement (.loadImm op) := fun m =>
  ⟨rfl, rfl, ⟨m.loadImm, true, .loadImm⟩, by simp [decodeRows, loadStoreRows, inOutRows, arithCopyRows, controlRows, indexStackRows, systemRows], rfl, rfl, rfl⟩

theorem loadAddr (op : Int) : Statement (.loadAddr op) := fun m =>
  ⟨rfl, rfl, ⟨m.loadAddr, true, .loadAddr⟩, by simp [decodeRows, loadStoreRows, inOutRows, arithCopyRows, controlRows, indexStackRows, systemRows], rfl, rfl, rfl⟩

theorem loadInd (op : Int) : Statement (.loadInd op) := fun m =>
  ⟨rfl, rfl, ⟨m.loadInd, true, .loadInd⟩, by simp [decodeRows, loadStoreRows, inOutRows, arithCopyRows, controlRows, indexStackRows, systemRows], rfl, rfl, rfl⟩

theorem loadIdxX (op : Int) : Statement (.loadIdxX op) := fun m =>
  ⟨rfl, rfl, ⟨m.loadIdxX, true, .loadIdxX⟩, by simp [decodeRows, loadStoreRows, inOutRows, arithCopyRows, controlRows, indexStackRows, systemRows], rfl, rfl, rfl⟩

theorem loadIdxY (op : Int) : Statement (.loadIdxY op) := fun m =>
  ⟨rfl, rfl, ⟨m.loadIdxY, true, .loadIdxY⟩, by simp [decodeRows, loadStoreRows, inOutRows, arithCopyRows, controlRows, indexStackRows, systemRows], rfl, rfl, rfl⟩

theorem loadSpX : Statement .loadSpX := fun m =>
  ⟨rfl, rfl, ⟨m.loadSpX, false, fun _ => .loadSpX⟩, by simp [decodeRows, loadStoreRows, inOutRows, arithCopyRows, controlRows, indexStackRows, systemRows], rfl, rfl, rfl⟩

theorem store (op : Int) : Statement (.store op) := fun m =>
  ⟨rfl, rfl, ⟨m.store, true, .store⟩, by simp [decodeRows, loadStoreRows, inOutRows, arithCopyRows, controlRows, indexStackRows, systemRows], rfl, rfl, rfl⟩

theorem get : Statement .get := fun m =>
  ⟨rfl, rfl, ⟨m.get, false, fun _ => .get⟩, by simp [decodeRows, loadStoreRows, inOutRows, arithCopyRows, controlRows, indexStackRows, systemRows], rfl, rfl, rfl⟩

theorem put (op : Int) : Statement (.put op) := fun m =>
  ⟨rfl, rfl, ⟨m.put, true, .put⟩, by simp [decodeRows, loadStoreRows, inOutRows, arithCopyRows, controlRows, indexStackRows, systemRows], rfl, rfl, rfl⟩

theorem addX : Statement .addX := fun m =>
  ⟨rfl, rfl, ⟨m.addX, false, fun _ => .addX⟩, by simp [decodeRows, loadStoreRows, inOutRows, arithCopyRows, controlRows, indexStackRows, systemRows], rfl, rfl, rfl⟩

theorem addY : Statement .addY := fun m =>
  ⟨rfl, rfl, ⟨m.addY, false, fun _ => .addY⟩, by simp [decodeRows, loadStoreRows, inOutRows, arithCopyRows, controlRows, indexStackRows, systemRows], rfl, rfl, rfl⟩

theorem subX : Statement .subX := fun m =>
  ⟨rfl, rfl, ⟨m.subX, false, fun _ => .subX⟩, by simp [decodeRows, loadStoreRows, inOutRows, arithCopyRows, controlRows, indexStackRows, systemRows], rfl, rfl, rfl⟩

theorem subY : Statement .subY := fun m =>
  ⟨rfl, rfl, ⟨m.subY, false, fun _ => .subY⟩, by simp [decodeRows, loadStoreRows, inOutRows, arithCopyRows, controlRows, indexStackRows, systemRows], rfl, rfl, rfl⟩

theorem copyToX : Statement .copyToX := fun m =>
  ⟨rfl, rfl, ⟨m.copyToX, false, fun _ => .copyToX⟩, by simp [decodeRows, loadStoreRows, inOutRows, arithCopyRows, controlRows, indexStackRows, systemRows], rfl, rfl, rfl⟩

theorem copyFromX : Statement .copyFromX := fun m =>
  ⟨rfl, rfl, ⟨m.copyFromX, false, fun _ => .copyFromX⟩, by simp [decodeRows, loadStoreRows, inOutRows, arithCopyRows, controlRows, indexStackRows, systemRows], rfl, rfl, rfl⟩

theorem copyToY : Statement .copyToY := fun m =>
  ⟨rfl, rfl, ⟨m.copyToY, false, fun _ => .copyToY⟩, by simp [decodeRows, loadStoreRows, inOutRows, arithCopyRows, controlRows, indexStackRows, systemRows], rfl, rfl, rfl⟩

theorem copyFromY : Statement .copyFromY := fun m =>
  ⟨rfl, rfl, ⟨m.copyFromY, false, fun _ => .copyFromY⟩, by simp [decodeRows, loadStoreRows, inOutRows, arithCopyRows, controlRows, indexStackRows, systemRows], rfl, rfl, rfl⟩

theorem copyToSp : Statement .copyToSp := fun m =>
  ⟨rfl, rfl, ⟨m.copyToSp, false, fun _ => .copyToSp⟩, by simp [decodeRows, loadStoreRows, inOutRows, arithCopyRows, controlRows, indexStackRows, systemRows], rfl, rfl, rfl⟩

theorem copyFromSp : Statement .copyFromSp := fun m =>
  ⟨rfl, rfl, ⟨m.copyFromSp, false, fun _ => .copyFromSp⟩, by simp [decodeRows, loadStoreRows, inOutRows, arithCopyRows, controlRows, indexStackRows, systemRows], rfl, rfl, rfl⟩

theorem jump (op : Int) : Statement (.jump op) := fun m =>
  ⟨rfl, rfl, ⟨m.jump, true, .jump⟩, by simp [decodeRows, loadStoreRows, inOutRows, arithCopyRows, controlRows, indexStackRows, systemRows], rfl, rfl, rfl⟩

theorem jumpIfEqual (op : Int) : Statement (.jumpIfEqual op) := fun m =>
  ⟨rfl, rfl, ⟨m.jumpIfEqual, true, .jumpIfEqual⟩, by simp [decodeRows, loadStoreRows, inOutRows, arithCopyRows, controlRows, indexStackRows, systemRows], rfl, rfl, rfl⟩

theorem jumpIfNotEqual (op : Int) : Statement (.jumpIfNotEqual op) := fun m =>
  ⟨rfl, rfl, ⟨m.jumpIfNotEqual, true, .jumpIfNotEqual⟩, by simp [decodeRows, loadStoreRows, inOutRows, arithCopyRows, controlRows, indexStackRows, systemRows], rfl, rfl, rfl⟩

theorem call (op : Int) : Statement (.call op) := fun m =>
  ⟨rfl, rfl, ⟨m.call, true, .call⟩, by simp [decodeRows, loadStoreRows, inOutRows, arithCopyRows, controlRows, indexStackRows, systemRows], rfl, rfl, rfl⟩

theorem ret : Statement .ret := fun m =>
  ⟨rfl, rfl, ⟨m.ret, false, fun _ => .ret⟩, by simp [decodeRows, loadStoreRows, inOutRows, arithCopyRows, controlRows, indexStackRows, systemRows], rfl, rfl, rfl⟩

theorem incX : Statement .incX := fun m =>
  ⟨rfl, rfl, ⟨m.incX, false, fun _ => .incX⟩, by simp [decodeRows, loadStoreRows, inOutRows, arithCopyRows, controlRows, indexStackRows, systemRows], rfl, rfl, rfl⟩

theorem decX : Statement .decX := fun m =>
  ⟨rfl, rfl, ⟨m.decX, false, fun _ => .decX⟩, by simp [decodeRows, loadStoreRows, inOutRows, arithCopyRows, controlRows, indexStackRows, systemRows], rfl, rfl, rfl⟩

theorem push : Statement .push := fun m =>
  ⟨rfl, rfl, ⟨m.push, false, fun _ => .push⟩, by simp [decodeRows, loadStoreRows, inOutRows, arithCopyRows, controlRows, indexStackRows, systemRows], rfl, rfl, rfl⟩

theorem pop : Statement .pop := fun m =>
  ⟨rfl, rfl, ⟨m.pop, false, fun _ => .pop⟩, by simp [decodeRows, loadStoreRows, inOutRows, arithCopyRows, controlRows, indexStackRows, systemRows], rfl, rfl, rfl⟩

theorem int : Statement .int := fun m =>
  ⟨rfl, rfl, ⟨m.int, false, fun _ => .int⟩, by simp [decodeRows, loadStoreRows, inOutRows, arithCopyRows, controlRows, indexStackRows, systemRows], rfl, rfl, rfl⟩

theorem iRet : Statement .iRet := fun m =>
  ⟨rfl, rfl, ⟨m.iRet, false, fun _ => .iRet⟩, by simp [decodeRows, loadStoreRows, inOutRows, arithCopyRows, controlRows, indexStackRows, systemRows], rfl, rfl, rfl⟩

theorem endRun : Statement .endRun := fun m =>
  ⟨rfl, rfl, ⟨m.endRun, false, fun _ => .endRun⟩, by simp [decodeRows, loadStoreRows, inOutRows, arithCopyRows, controlRows, indexStackRows, systemRows], rfl, rfl, rfl⟩

end Sys2Proof.Laws.Words
end

