-- ==== Sys2Proof/Tests/Slice0.lean ====
section
/-! SUPPORT. The model's own tests: the checks of WellFormed refuse, every instruction's word decodes, the spec's vectors
(95_test_vectors.md) hold of one step, and every obligation's hypotheses are met by a concrete state. The expected results are
the spec's vectors, examples and tables, or a hand calculation from its rules. -/

namespace Sys2Proof.Tests

open Sys2Proof.Machine

/-! ## Helpers -/

/-- A memory holding these cells. -/
def image (cells : List (Nat × Int)) : Memory := cells.foldl (fun m c => m.write c.1 c.2) ⟨[]⟩

/-- The state after reset with these cells in memory. -/
def loaded (cells : List (Nat × Int)) : State := { State.reset with mem := image cells }

/-- The same in Kernel mode at an address. -/
def kernelAt (pc : Int) (cells : List (Nat × Int)) : State := { loaded cells with mode := .kernel, pc := pc }

/-- The next state of an outcome, if there is one. -/
def nextOf : Host.Outcome State Fault Refusal → Option State
  | .next t => some t
  | .fault _ => none
  | .refused _ => none

/-- The refusal of an outcome, if it is one. -/
def refusalOf : Host.Outcome State Fault Refusal → Option Refusal
  | .next _ => none
  | .fault _ => none
  | .refused r => some r

/-- The state after one step. -/
def after (s : State) : Option State := nextOf (step s)

/-- The reference configuration with another action for Int in Kernel mode. -/
def withKint (s : State) (k : KIntAction) : State := { s with cfg := { s.cfg with kintAction := k } }

/-! ## WellFormed: each check refuses an ill-formed term -/

theorem test_reference_wf : Config.reference.WF := by decide

theorem test_wf_refuses_userLimit_zero : ¬ { Config.reference with userLimit := 0 }.UserLimitOk := by decide

theorem test_wf_refuses_userLimit_above_memory : ¬ { Config.reference with userLimit := 2001 }.UserLimitOk := by decide

theorem test_wf_refuses_timerBase_in_user_memory : ¬ { Config.reference with timerBase := 999 }.WF := by decide

theorem test_wf_refuses_swiBase_above_memory : ¬ { Config.reference with swiBase := 2000 }.WF := by decide

theorem test_wf_refuses_kstackTop_above_memory : ¬ { Config.reference with kstackTop := 2001 }.KStackOk := by decide

theorem test_wf_refuses_kstackTop_in_user_memory : ¬ { Config.reference with kstackTop := 1001 }.KStackOk := by decide

theorem test_wf_refuses_memWords_too_large : ¬ { Config.reference with memWords := 2147483648 }.MemWordsOk := by decide

theorem test_wf_refuses_repeated_opcode : ¬ { OpcodeMap.reference with endRun := 1 }.Distinct := by decide

theorem test_wf_refuses_timerLimit_out_of_range :
    ¬ Config.reference.TimerLimitOk 0 ∧ ¬ Config.reference.TimerLimitOk (-1) ∧
      ¬ Config.reference.TimerLimitOk 2147483648 ∧ Config.reference.TimerLimitOk 1 ∧
      Config.reference.TimerLimitOk 2147483647 := by decide

theorem test_wf_refuses_narrow_words : ¬ { Config.reference with wordBits := 7, memWords := 63 }.WordsOk := by decide

theorem test_wf_refuses_userSp0_of_another_width : ¬ { Config.reference with userSp0 := 2147483648 }.WordsOk := by decide

theorem test_wf_refuses_opcode_of_another_width :
    ¬ { Config.reference with opcodeMap := { OpcodeMap.reference with endRun := 2147483648 } }.WordsOk := by decide

/-- R82: an operand is a word of the width, and any word will do. -/
theorem test_wf_operand :
    Instr.wellFormed 32 (.loadImm (-2147483648)) = true ∧ Instr.wellFormed 32 (.jump 2147483647) = true ∧
      Instr.wellFormed 32 (.jump 2147483648) = false ∧ Instr.wellFormed 16 (.loadImm (-32769)) = false := by decide

/-- A configuration of 16-bit words is well formed too (R8, R9). -/
theorem test_wf_admits_another_width : { Config.reference with wordBits := 16 }.WF := by decide

/-- The launch inputs of the tests. -/
def inputs (limit : Int) (m : Memory) : LaunchInputs := ⟨limit, 0, 3, 0, 77, m⟩

theorem test_launch_refuses_bad_configuration :
    refusalOf (launch { Config.reference with userLimit := 0 } (inputs 3 ⟨[]⟩)) = some .configIllFormed := by decide

theorem test_launch_refuses_timerLimit_zero :
    refusalOf (launch Config.reference (inputs 0 ⟨[]⟩)) = some .timerLimitNotPositive := by decide

theorem test_launch_refuses_image_outside_memory :
    refusalOf (launch Config.reference (inputs 3 ⟨[(2000, 1)]⟩)) = some .imageIllFormed := by decide

theorem test_launch_refuses_input_of_another_width :
    refusalOf (launch Config.reference (inputs 2147483648 ⟨[]⟩)) = some .inputNotAWord ∧
      refusalOf (launch Config.reference (inputs 3 ⟨[(0, -2147483649)]⟩)) = some .inputNotAWord := by decide

/-! ## Decoding: the words written out bit by bit from R84's table, the operand word (-1000) above the opcode word -/

theorem test_decode_loadImm :
    decodeTableWord 64 0b1111111111111111111111000001100000000000000000000000000000000001 =
      some (.loadImm (-1000)) := by decide

theorem test_decode_loadAddr :
    decodeTableWord 64 0b1111111111111111111111000001100000000000000000000000000000000010 =
      some (.loadAddr (-1000)) := by decide

theorem test_decode_loadInd :
    decodeTableWord 64 0b1111111111111111111111000001100000000000000000000000000000000011 =
      some (.loadInd (-1000)) := by decide

theorem test_decode_loadIdxX :
    decodeTableWord 64 0b1111111111111111111111000001100000000000000000000000000000000100 =
      some (.loadIdxX (-1000)) := by decide

theorem test_decode_loadIdxY :
    decodeTableWord 64 0b1111111111111111111111000001100000000000000000000000000000000101 =
      some (.loadIdxY (-1000)) := by decide

theorem test_decode_loadSpX : decodeTableWord 32 0b00000000000000000000000000000110 = some .loadSpX := by decide

theorem test_decode_store :
    decodeTableWord 64 0b1111111111111111111111000001100000000000000000000000000000000111 =
      some (.store (-1000)) := by decide

theorem test_decode_get : decodeTableWord 32 0b00000000000000000000000000001000 = some .get := by decide

theorem test_decode_put :
    decodeTableWord 64 0b1111111111111111111111000001100000000000000000000000000000001001 =
      some (.put (-1000)) := by decide

theorem test_decode_addX : decodeTableWord 32 0b00000000000000000000000000001010 = some .addX := by decide

theorem test_decode_addY : decodeTableWord 32 0b00000000000000000000000000001011 = some .addY := by decide

theorem test_decode_subX : decodeTableWord 32 0b00000000000000000000000000001100 = some .subX := by decide

theorem test_decode_subY : decodeTableWord 32 0b00000000000000000000000000001101 = some .subY := by decide

theorem test_decode_copyToX : decodeTableWord 32 0b00000000000000000000000000001110 = some .copyToX := by decide

theorem test_decode_copyFromX : decodeTableWord 32 0b00000000000000000000000000001111 = some .copyFromX := by decide

theorem test_decode_copyToY : decodeTableWord 32 0b00000000000000000000000000010000 = some .copyToY := by decide

theorem test_decode_copyFromY : decodeTableWord 32 0b00000000000000000000000000010001 = some .copyFromY := by decide

theorem test_decode_copyToSp : decodeTableWord 32 0b00000000000000000000000000010010 = some .copyToSp := by decide

theorem test_decode_copyFromSp : decodeTableWord 32 0b00000000000000000000000000010011 = some .copyFromSp := by decide

theorem test_decode_jump :
    decodeTableWord 64 0b1111111111111111111111000001100000000000000000000000000000010100 =
      some (.jump (-1000)) := by decide

theorem test_decode_jumpIfEqual :
    decodeTableWord 64 0b1111111111111111111111000001100000000000000000000000000000010101 =
      some (.jumpIfEqual (-1000)) := by decide

theorem test_decode_jumpIfNotEqual :
    decodeTableWord 64 0b1111111111111111111111000001100000000000000000000000000000010110 =
      some (.jumpIfNotEqual (-1000)) := by decide

theorem test_decode_call :
    decodeTableWord 64 0b1111111111111111111111000001100000000000000000000000000000010111 =
      some (.call (-1000)) := by decide

theorem test_decode_ret : decodeTableWord 32 0b00000000000000000000000000011000 = some .ret := by decide

theorem test_decode_incX : decodeTableWord 32 0b00000000000000000000000000011001 = some .incX := by decide

theorem test_decode_decX : decodeTableWord 32 0b00000000000000000000000000011010 = some .decX := by decide

theorem test_decode_push : decodeTableWord 32 0b00000000000000000000000000011011 = some .push := by decide

theorem test_decode_pop : decodeTableWord 32 0b00000000000000000000000000011100 = some .pop := by decide

theorem test_decode_int : decodeTableWord 32 0b00000000000000000000000000011101 = some .int := by decide

theorem test_decode_iRet : decodeTableWord 32 0b00000000000000000000000000011110 = some .iRet := by decide

theorem test_decode_endRun : decodeTableWord 32 0b00000000000000000000000000110010 = some .endRun := by decide

/-- R86: the illegal words of vector Y11, and words that share their low bits with a legal one. -/
theorem test_decode_refuses_illegal_words :
    [0, 31, 49, 51, -1, 2147483647, 0x10001, wrap 32 0x80000032].all
      (fun w => (decodeOpcode OpcodeMap.reference w).isNone) = true := by decide

theorem test_decode_refuses_missing_operand : decode OpcodeMap.reference [23] = .error (.operandMissing 23) := by decide

/-- The words of the host's numbering: the opcode word is bits 31..0, the operand word bits 63..32. -/
theorem test_decodeTableWord :
    decodeTableWord 64 (0x0000000A00000017) = some (.call 10) ∧ decodeTableWord 32 0x0000000A00000017 = some (.call 0) ∧
      decodeTableWord 32 50 = some .endRun ∧ decodeTableWord 32 31 = none := by decide

/-- R96: the scenario program. -/
theorem test_encode_scenario :
    encode OpcodeMap.reference (.loadImm 5) ++ encode OpcodeMap.reference .addX ++ encode OpcodeMap.reference .endRun =
      [1, 5, 10, 50] := by decide

/-! ## One step: the vectors of 95_test_vectors.md -/

/-- Vector L1. -/
theorem test_loadImm :
    (after (loaded [(0, 1), (1, -7)])).map (fun t => (t.ac, t.pc, t.count)) =
      some (-7, 2, 1) := by decide

/-- Vector L21. -/
theorem test_loadImm_operand_fault :
    (after { loaded [(999, 1)] with pc := 999 }).map (fun t => (t.status, t.pc, t.count)) =
      some (.protectionFault 1000 .operand 999, 1000, 1) := by decide

/-- Vector L2. -/
theorem test_loadAddr :
    (after (loaded [(0, 2), (1, 100), (100, 7)])).map (fun t => (t.ac, t.pc, t.trace)) =
      some (7, 2, [.read 0, .read 1, .read 100]) := by decide

/-- Vectors L5 and S3. -/
theorem test_loadAddr_protected :
    (after (loaded [(0, 2), (1, 1000)])).map (fun t => (t.status, t.pc, t.trace)) =
      some (.protectionFault 1000 .data 0, 2, [.read 0, .read 1, .terminate]) := by decide

/-- Vector L10. -/
theorem test_loadInd :
    (after (loaded [(0, 3), (1, 500), (500, 100), (100, 42)])).map (fun t => (t.ac, t.pc)) =
      some (42, 2) := by decide

/-- Vector L9. -/
theorem test_loadInd_second_read :
    (after (loaded [(0, 3), (1, 500), (500, 1200)])).map (fun t => (t.status, t.trace)) =
      some (.protectionFault 1200 .data 0, [.read 0, .read 1, .read 500, .terminate]) := by decide

/-- Vector L11. -/
theorem test_loadIdxX :
    (after { loaded [(0, 4), (1, 100), (103, 9)] with x := 3 }).map (fun t => (t.ac, t.x)) =
      some (9, 3) := by decide

/-- Vector L14. -/
theorem test_loadIdxX_wraps :
    (after { loaded [(0, 4), (1, 2147483647)] with x := 1 }).map (fun t => t.status) =
      some (.rangeFault (-2147483648) .data 0) := by decide

/-- Vector L16. -/
theorem test_loadIdxY :
    (after { loaded [(0, 5), (1, 100), (99, 4)] with y := -1 }).map (fun t => (t.ac, t.y)) =
      some (4, -1) := by decide

/-- Vector L17. -/
theorem test_loadSpX :
    (after { loaded [(0, 6), (991, 6)] with sp := 990, x := 1 }).map (fun t => (t.ac, t.pc, t.sp)) =
      some (6, 1, 990) := by decide

/-- Vector L15. -/
theorem test_loadSpX_empty_stack :
    (after (loaded [(0, 6)])).map (fun t => t.status) =
      some (.protectionFault 1000 .data 0) := by decide

/-- Vector L18. -/
theorem test_store :
    (after { loaded [(0, 7), (1, 500)] with ac := 9 }).map (fun t => (t.mem.read 500, t.ac, t.pc)) =
      some (9, 9, 2) := by decide

/-- Vector L19. -/
theorem test_store_protected :
    (after { loaded [(0, 7), (1, 1000)] with ac := 9 }).map (fun t => (t.status, t.mem.read 1000, t.trace)) =
      some (.protectionFault 1000 .write 0, 0, [.read 0, .read 1, .terminate]) := by decide

/-- Vector I2. -/
theorem test_put_int :
    (after { loaded [(0, 9), (1, 1)] with ac := -12 }).map (fun t => (t.out, t.ac, t.pc)) =
      some ([.printInt (-12)], -12, 2) := by decide

/-- Vector I5. -/
theorem test_put_bad_selector :
    (after { loaded [(0, 9), (1, 0)] with ac := 5 }).map (fun t => (t.out, t.ac, t.status)) =
      some ([.portError 0], 5, .running) := by decide

/-- Vector A1. -/
theorem test_addX :
    (after { loaded [(0, 10)] with ac := 5, x := 3 }).map (fun t => (t.ac, t.x, t.pc)) =
      some (8, 3, 1) := by decide

/-- Vector A2. -/
theorem test_addX_wraps :
    (after { loaded [(0, 10)] with ac := 2147483647, x := 1 }).map (fun t => t.ac) =
      some (-2147483648) := by decide

/-- Vector A4. -/
theorem test_addY :
    (after { loaded [(0, 11)] with ac := -4, y := 10 }).map (fun t => t.ac) =
      some (6) := by decide

/-- Vector A5. -/
theorem test_subX :
    (after { loaded [(0, 12)] with ac := 5, x := 8 }).map (fun t => t.ac) =
      some (-3) := by decide

/-- Vector A6. -/
theorem test_subX_wraps :
    (after { loaded [(0, 12)] with ac := -2147483648, x := 1 }).map (fun t => t.ac) =
      some (2147483647) := by decide

/-- From R143: the order of the operands. -/
theorem test_subY :
    (after { loaded [(0, 13)] with ac := 10, y := 3 }).map (fun t => t.ac) =
      some (7) := by decide

/-- Vector A9. -/
theorem test_copyToX :
    (after { loaded [(0, 14)] with ac := 3 }).map (fun t => (t.x, t.ac)) =
      some (3, 3) := by decide

/-- Vector A10. -/
theorem test_copyFromX :
    (after { loaded [(0, 15)] with x := -2 }).map (fun t => t.ac) =
      some (-2) := by decide

/-- Vector A11. -/
theorem test_copyToY :
    (after { loaded [(0, 16)] with ac := 12 }).map (fun t => t.y) =
      some (12) := by decide

/-- Vector A12. -/
theorem test_copyFromY :
    (after { loaded [(0, 17)] with ac := 9 }).map (fun t => t.ac) =
      some (0) := by decide

/-- Vector A13: no check of the value. -/
theorem test_copyToSp :
    (after { loaded [(0, 18)] with ac := 1500 }).map (fun t => (t.sp, t.status)) =
      some (1500, .running) := by decide

/-- Vector A14. -/
theorem test_copyFromSp :
    (after (loaded [(0, 19)])).map (fun t => t.ac) =
      some (1000) := by decide

/-- Vector C1. -/
theorem test_jump :
    (after { loaded [(10, 20), (11, 40)] with pc := 10 }).map (fun t => t.pc) =
      some (40) := by decide

/-- Vector C9: the jump itself does not fault. -/
theorem test_jump_to_protected :
    (after { loaded [(10, 20), (11, 1000)] with pc := 10 }).map (fun t => (t.pc, t.status)) =
      some (1000, .running) := by decide

/-- Vector C2. -/
theorem test_jumpIfEqual_taken :
    (after { loaded [(10, 21), (11, 40)] with pc := 10 }).map (fun t => t.pc) =
      some (40) := by decide

/-- Vector C2. -/
theorem test_jumpIfEqual_not_taken :
    (after { loaded [(10, 21), (11, 40)] with pc := 10, ac := -1 }).map (fun t => t.pc) =
      some (12) := by decide

/-- Vector C3. -/
theorem test_jumpIfNotEqual_taken :
    (after { loaded [(10, 22), (11, 40)] with pc := 10, ac := -3 }).map (fun t => t.pc) =
      some (40) := by decide

/-- Vector C3. -/
theorem test_jumpIfNotEqual_not_taken :
    (after { loaded [(10, 22), (11, 40)] with pc := 10 }).map (fun t => t.pc) =
      some (12) := by decide

/-- Vector C4. -/
theorem test_call :
    (after { loaded [(3, 23), (4, 10)] with pc := 3 }).map (fun t => (t.mem.read 999, t.sp, t.pc)) =
      some (5, 999, 10) := by decide

/-- Vector C5. -/
theorem test_call_protected :
    (after { loaded [(10, 23), (11, 40)] with pc := 10, sp := 1001 }).map (fun t => (t.status, t.sp, t.pc)) =
      some (.protectionFault 1000 .write 10, 1000, 12) := by decide

/-- Vector C7. -/
theorem test_ret :
    (after { loaded [(10, 24), (999, 5)] with pc := 10, sp := 999 }).map (fun t => (t.pc, t.sp)) =
      some (5, 1000) := by decide

/-- Vector C8. -/
theorem test_ret_empty_stack :
    (after { loaded [(10, 24)] with pc := 10 }).map (fun t => (t.status, t.sp, t.pc)) =
      some (.protectionFault 1000 .data 10, 1000, 11) := by decide

/-- Vector X2. -/
theorem test_incX :
    (after { loaded [(0, 25)] with x := 2147483647 }).map (fun t => t.x) =
      some (-2147483648) := by decide

/-- Vector X3. -/
theorem test_decX :
    (after (loaded [(0, 26)])).map (fun t => t.x) =
      some (-1) := by decide

/-- Vector K1. -/
theorem test_push :
    (after { loaded [(0, 27)] with ac := 7 }).map (fun t => (t.sp, t.mem.read 999, t.ac)) =
      some (999, 7, 7) := by decide

/-- Vector K2. -/
theorem test_push_below_zero :
    (after { loaded [(0, 27)] with sp := 0 }).map (fun t => (t.sp, t.status)) =
      some (-1, .rangeFault (-1) .write 0) := by decide

/-- Vector K3. -/
theorem test_pop :
    (after { loaded [(0, 28), (999, 7)] with sp := 999 }).map (fun t => (t.ac, t.sp, t.mem.read 999)) =
      some (7, 1000, 7) := by decide

/-- Vector K4. -/
theorem test_pop_empty_stack :
    (after { loaded [(0, 28)] with ac := 3 }).map (fun t => (t.status, t.ac, t.sp)) =
      some (.protectionFault 1000 .data 0, 3, 1000) := by decide

/-- Vector Y2. -/
theorem test_int_user :
    (after { loaded [(2, 29)] with pc := 2, sp := 500 }).map (fun t => (t.mode, t.mem.read 1999, t.mem.read 1998, t.sp, t.pc, t.count)) =
      some (.kernel, 500, 3, 1998, 1500, 1) := by decide

/-- Vector Y3. -/
theorem test_int_kernel_halt :
    (after (kernelAt 1600 [(1600, 29)])).map (fun t => (t.status, t.pc, t.trace)) =
      some (.halted, 1601, [.read 1600, .terminate]) := by decide

/-- Vector Y6. -/
theorem test_iRet_kernel :
    (after { kernelAt 1505 [(1505, 30), (1998, 3), (1999, 1000)] with sp := 1998 }).map (fun t => (t.pc, t.sp, t.mode, t.count)) =
      some (3, 1000, .user, 0) := by decide

/-- Vector Y8. -/
theorem test_iRet_user_second_read :
    (after { loaded [(0, 30), (999, 20)] with sp := 999 }).map (fun t => (t.pc, t.sp, t.status)) =
      some (20, 1000, .protectionFault 1000 .data 0) := by decide

/-- Vector Y10. -/
theorem test_endRun_skips_the_timer :
    (after { loaded [(0, 50)] with timerLimit := 1 }).map (fun t => (t.status, t.count, t.pc, t.trace)) =
      some (.halted, 1, 1, [.read 0, .terminate]) := by decide

/-- Vector Y11. -/
theorem test_illegal_opcode :
    (after { loaded [(7, 31)] with pc := 7 }).map (fun t => (t.status, t.pc, t.count)) =
      some (.invalidOpcode 31 7, 8, 1) := by decide

/-- Vector C9, its second step. -/
theorem test_fetch_protected :
    (after { loaded [] with pc := 1000 }).map (fun t => (t.status, t.pc, t.count)) =
      some (.protectionFault 1000 .fetch 1000, 1000, 1) := by decide

/-- Vector C10, its second step. -/
theorem test_fetch_out_of_range :
    (after (kernelAt 2000 [])).map (fun t => (t.status, t.pc, t.count)) =
      some (.rangeFault 2000 .fetch 2000, 2000, 0) := by decide

/-- Vector T2: the timer saves the jump target. -/
theorem test_timer_after_jump :
    (after { loaded [(0, 20), (1, 5)] with timerLimit := 1 }).map (fun t => (t.mem.read 1998, t.mem.read 1999, t.mode, t.pc, t.sp, t.count)) =
      some (5, 1000, .kernel, 1000, 1998, 0) := by decide

/-- Vector I1: every draw lies in [1, 100]; the free value itself cannot be evaluated. -/
theorem test_get : ∃ t, step (loaded [(0, 8)]) = .next t ∧ 1 ≤ t.ac ∧ t.ac ≤ 100 ∧ t.pc = 1 := by
  refine ⟨_, rfl, ?_, ?_, by decide⟩
  · show (1 : Int) ≤ (((Config.freeDraw 0).val + 1 : Nat) : Int)
    omega
  · show (((Config.freeDraw 0).val + 1 : Nat) : Int) ≤ 100
    omega

/-- R8, R11: at 16 bits 32767 + 1 wraps to -32768. -/
theorem test_addX_wraps_at_16_bits :
    (after { loaded [(0, 10)] with ac := 32767, x := 1, cfg := { Config.reference with wordBits := 16 } }).map
      (fun t => t.ac) = some (-32768) := by decide

/-- Vectors Y4 and Y5. -/
theorem test_int_kernel_other_actions :
    (after (withKint (kernelAt 1600 [(1600, 29)]) .nop)).map (fun t => (t.status, t.pc, t.mode)) =
        some (.running, 1601, .kernel) ∧
      (after (withKint (kernelAt 1600 [(1600, 29)]) .fault)).map (fun t => t.status) =
        some (.kernelIntFault 1600) := by decide

/-- Program P4, step 3: the deferred timer is taken in the step of the IRet. -/
theorem test_deferred_timer :
    (after { kernelAt 1500 [(1500, 30), (1998, 2), (1999, 1000)] with sp := 1998, count := 2, timerLimit := 2 }).map
        (fun t => (t.count, t.mode, t.pc, t.sp, t.mem.read 1998, t.mem.read 1999)) =
      some (0, .kernel, 1000, 1998, 2, 1000) := by decide

/-- R35, MEMORY: writing what an unlisted address reads as removes the entry, so equal memories are equal data. -/
theorem test_memory_canonical : (image [(5, 1), (3, 2), (5, 0)]) = ⟨[(3, 2)]⟩ ∧ (image [(5, 1), (3, 2)]).WF := by decide

/-- R62: Read(258) and Read(-1) in 4 bytes, and in big-endian order. -/
theorem test_wire_bytes :
    Request.wireBytes Config.reference (.read 258) = [0x72#8, 2#8, 1#8, 0#8, 0#8] ∧
      Request.wireBytes Config.reference (.read (-1)) = [0x72#8, 255#8, 255#8, 255#8, 255#8] ∧
      Request.wireBytes { Config.reference with wireEndian := .big } (.read 258) = [0x72#8, 0#8, 0#8, 1#8, 2#8] ∧
      Request.responseBytes Config.reference 258 (.read 7) = [2#8, 1#8, 0#8, 0#8] := by decide

/-- R95 says nothing of a word that falls outside the memory: the model's loader gives no image (log entry 20). -/
theorem test_load_outside_memory : loadImage Config.reference [.offset 1999, .word 1, .word 2] = none := by decide

/-- Program P6 under fuel: the run stops at its fault and then stays (R91). -/
theorem test_run :
    (nextOf (run 5 (loaded [(0, 2), (1, 1500)]))).map (fun t => (t.status, t.pc, t.count)) =
      some (.protectionFault 1500 .data 0, 2, 1) := by decide

/-- The host's placing of an instruction: the next step runs it. -/
theorem test_withFetchWord :
    (after (State.reset.withFetchWord 64 0x0000000500000001)).map (fun t => (t.ac, t.pc)) = some (5, 2) := by decide


/-! ## Witnesses: each obligation's hypotheses are met, at the boundary of each clause -/

theorem witness_DecodeOfEncode : OpcodeMap.reference.Distinct := by decide

theorem witness_EncodeOfDecode : decode OpcodeMap.reference [1, 5] = .ok (.loadImm 5, []) := by decide

/-- LaunchSetsTheResetState and InvHoldsAtEveryLaunch. -/
theorem witness_launch : ∃ s, launch Config.reference (inputs 1 (image [(1999, 1)])) = .next s ∧ s.x = 3 :=
  ⟨launchState Config.reference (inputs 1 (image [(1999, 1)])), if_neg (by decide) |>.trans <| (if_neg (by decide)).trans <|
    (if_neg (by decide)).trans <| if_neg (by decide), rfl⟩

theorem witness_LaunchRefusesExactlyBadInputs :
    ¬ { Config.reference with userLimit := 2001 }.WF ∧ (Config.reference.WF ∧ (inputs 0 ⟨[]⟩).timerLimit ≤ 0) ∧
      (1 ≤ (inputs 2147483648 ⟨[]⟩).timerLimit ∧ ¬ (inputs 2147483648 ⟨[]⟩).Words Config.reference) ∧
      (1 ≤ (inputs 1 ⟨[(2000, 1)]⟩).timerLimit ∧ (inputs 1 ⟨[(2000, 1)]⟩).Words Config.reference ∧
        ¬ ((inputs 1 ⟨[(2000, 1)]⟩).image.WF ∧ (inputs 1 ⟨[(2000, 1)]⟩).image.Below Config.reference.memWords)) ∧
      (Config.reference.TimerLimitOk (inputs 1 ⟨[(1999, 1)]⟩).timerLimit ∧
        (inputs 1 ⟨[(1999, 1)]⟩).Words Config.reference ∧ (inputs 1 ⟨[(1999, 1)]⟩).image.WF ∧
        (inputs 1 ⟨[(1999, 1)]⟩).image.Below Config.reference.memWords) :=
  ⟨by decide, by decide, by decide, by decide, by decide⟩

/-- A state one User-mode instruction before its timer, meeting the invariant. -/
def nearLimit : State := { loaded [(0, 25)] with count := 99 }

theorem witness_StepKeepsInv : nearLimit.Inv ∧ (after nearLimit).map (fun t => t.count) = some 0 :=
  ⟨⟨by decide, by decide, by decide, by decide, by decide, by decide, by decide, by decide,
    fun _ h => (List.not_mem_nil h).elim, by
    show Request.terminate ∉ []
    decide⟩, by decide⟩

theorem witness_StepRunsDecodedInstruction :
    (loaded []).status = .running ∧ (loaded [(998, 1), (999, 5)]).Reliable ∧
      ({ loaded [(998, 1), (999, 5)] with pc := 998 }).accessFault 998 .fetch 998 = none ∧
      ({ loaded [(998, 1), (999, 5)] with pc := 998 }).accessFault 998 .operand 999 = none ∧
      decode OpcodeMap.reference [(image [(998, 1), (999, 5)]).read 998, (image [(998, 1), (999, 5)]).read 999] =
        .ok (.loadImm 5, []) := by decide

/-- A one-word instruction in the last user word: its operand address would fault, and is not fetched. -/
theorem witness_StepRunsDecodedInstruction_last_word :
    ({ loaded [(999, 25)] with pc := 999 }).accessFault 999 .fetch 999 = none ∧
      ({ loaded [(999, 25)] with pc := 999 }).accessFault 999 .operand 1000 ≠ none ∧ Instr.incX.hasOperand = false ∧
      decode OpcodeMap.reference [(image [(999, 25)]).read 999, (image [(999, 25)]).read 1000] = .ok (.incX, [0]) := by
  decide

theorem witness_StepStopsOnFetchFault :
    ({ State.reset with pc := 1000 }).accessFault 1000 .fetch 1000 = some (.protectionFault 1000 .fetch 1000) ∧
      ({ State.reset with pc := -1 }).accessFault (-1) .fetch (-1) = some (.rangeFault (-1) .fetch (-1)) ∧
      (kernelAt 2000 []).accessFault 2000 .fetch 2000 = some (.rangeFault 2000 .fetch 2000) ∧
      (kernelAt 1999 []).accessFault 1999 .fetch 1999 = none := by decide

theorem witness_StepStopsOnIllegalOpcode :
    State.reset.status = .running ∧ State.reset.Reliable ∧ State.reset.accessFault 0 .fetch 0 = none ∧
      (decodeOpcode State.reset.cfg.opcodeMap (State.reset.mem.read 0)).isNone = true := by decide

/-- Both clauses of OperandFetchAsStated, for an opcode word at 998 and at 999. -/
theorem witness_OperandFetch :
    OpcodeMap.reference.Distinct ∧
      ({ loaded [(998, 1), (999, 5)] with pc := 999, ir := 1 }).ir = opcodeOf OpcodeMap.reference (.loadImm 0) ∧
      ({ loaded [(998, 1), (999, 5)] with pc := 999, ir := 1 }).accessFault 998 .operand 999 = none ∧
      ({ loaded [(999, 1)] with pc := 1000, ir := 1 }).accessFault 999 .operand 1000 =
        some (.protectionFault 1000 .operand 999) := by decide

theorem witness_TimerFiresExactlyAtTheLimit :
    ({ State.reset with count := 100 }).timerFires = true ∧ ({ State.reset with count := 99 }).timerFires = false ∧
      ({ State.reset with count := 100, mode := .kernel }).timerFires = false ∧
      ({ State.reset with count := 100, status := .halted }).timerFires = false := by decide

theorem witness_EndedRunHasNoStep : ({ State.reset with status := .halted }).status ≠ .running := by decide

/-- The checks of a User-mode data read or write at 999, 1000 and -1, and of a Kernel-mode one at 1999 and 2000: the
hypotheses of every statement about one access. -/
theorem witness_accesses :
    State.reset.accessFault 0 .data 999 = none ∧
      State.reset.accessFault 0 .data 1000 = some (.protectionFault 1000 .data 0) ∧
      State.reset.accessFault 0 .write (-1) = some (.rangeFault (-1) .write 0) ∧
      (kernelAt 1000 []).accessFault 1000 .data 1999 = none ∧
      (kernelAt 1000 []).accessFault 1000 .write 2000 = some (.rangeFault 2000 .write 1000) ∧
      State.reset.Reliable := by decide

/-- LoadAddrResult and StoreResult: operands 999 and 1000 after the operand fetch of an instruction at 0. -/
theorem witness_LoadAddrResult_StoreResult :
    (loaded []).Reliable ∧ ({ loaded [] with pc := 2 }).accessFault (2 - 2) .data 999 = none ∧
      ({ loaded [] with pc := 2 }).accessFault (2 - 2) .data 1000 ≠ none ∧
      ({ loaded [] with pc := 2 }).accessFault (2 - 2) .write 999 = none ∧
      ({ loaded [] with pc := 2 }).accessFault (2 - 2) .write 1000 ≠ none := by decide

/-- LoadIndResult: a pointer read that goes through, to a word that may and to one that may not be read; and operand 1000. -/
theorem witness_LoadIndResult :
    (loaded [(500, 999)]).accessFault 0 .data 500 = none ∧
      (loaded [(500, 999)]).accessFault 0 .data ((image [(500, 999)]).read 500) = none ∧
      (loaded [(500, 1000)]).accessFault 0 .data ((image [(500, 1000)]).read 500) ≠ none ∧
      (loaded []).accessFault 0 .data 1000 ≠ none := by decide

/-- IndexedLoadResults: base plus index and stack plus index at 999 and at 1000. -/
theorem witness_IndexedLoadResults :
    ({ loaded [] with x := 9, y := 9 }).accessFault 0 .data (990 + 9) = none ∧
      ({ loaded [] with x := 10, y := 10 }).accessFault 0 .data (990 + 10) ≠ none ∧
      ({ loaded [] with x := -1 }).accessFault 0 .data (State.reset.sp + -1) = none ∧
      ({ loaded [] with x := 0 }).accessFault 0 .data (State.reset.sp + 0) ≠ none := by decide

theorem witness_StoreIsSeenByTheNextFetch :
    (loaded []).mem.WF ∧ (loaded []).Reliable ∧ ({ loaded [] with pc := 2 }).accessFault (2 - 2) .write 999 = none := by
  decide

theorem witness_PutEmitsOneEvent : (1 : Int) = 1 ∧ (2 : Int) = 2 ∧ (0 : Int) ≠ 1 ∧ (0 : Int) ≠ 2 := by decide

theorem witness_JumpResults : State.reset.ac = 0 ∧ ({ State.reset with ac := -1 }).ac ≠ 0 := by decide

/-- CallResult, PushResult, PopResult, RetUndoesCall: a push at 999 and one at 1000. -/
theorem witness_pushes :
    (loaded []).cfg.WF ∧ (loaded []).cfg.IsWord (loaded []).sp ∧ (loaded []).mem.WF ∧ (loaded []).Reliable ∧ (loaded []).accessFault 0 .write ((loaded []).sp - 1) = none ∧
      ({ loaded [] with sp := 1001 }).accessFault 0 .write (1001 - 1) ≠ none ∧
      ({ loaded [] with sp := 0 }).accessFault 0 .write (0 - 1) ≠ none := by decide

/-- RetResult, PopResult: a pop at 999 and one at 1000. -/
theorem witness_pops :
    ({ loaded [(999, 5)] with sp := 999 }).accessFault 0 .data 999 = none ∧
      (loaded []).accessFault 0 .data (loaded []).sp ≠ none := by decide

/-- DispatchSavesAndEntersTheHandler, IntInUserModeDispatches, AddAndSubtractWrap, IncrementAndDecrementX. -/
theorem witness_dispatch : State.reset.mode = .user ∧ State.reset.cfg.WF ∧ State.reset.Reliable := by decide

theorem witness_IntInKernelModeFollowsKintAction :
    (kernelAt 1600 []).mode = .kernel ∧ (withKint (kernelAt 1600 []) .halt).cfg.kintAction = .halt ∧
      (withKint (kernelAt 1600 []) .nop).cfg.kintAction = .nop ∧
      (withKint (kernelAt 1600 []) .fault).cfg.kintAction = .fault := by decide

/-- IRetResult: both reads go through; the second is stopped; the first is stopped; in both modes. -/
theorem witness_IRetResult :
    ({ kernelAt 1506 [] with sp := 1998 }).accessFault 1505 .data 1998 = none ∧
      ({ kernelAt 1506 [] with sp := 1998 }).accessFault 1505 .data (1998 + 1) = none ∧
      ({ kernelAt 1506 [] with sp := 1999 }).accessFault 1505 .data (1999 + 1) ≠ none ∧
      ({ loaded [] with sp := 998 }).accessFault 0 .data (998 + 1) = none ∧
      ({ loaded [] with sp := 999 }).accessFault 0 .data 999 = none ∧
      ({ loaded [] with sp := 999 }).accessFault 0 .data (999 + 1) ≠ none ∧
      (loaded []).accessFault 0 .data (loaded []).sp ≠ none := by decide

/-- The state a software dispatch leaves, of a program at 3. -/
def dispatched3 : State :=
  { kernelAt 1500 [(1998, 3), (1999, 1000)] with sp := 1998, trace := [.write 1999 1000, .write 1998 3] }

theorem witness_IRetUndoesDispatch :
    ({ loaded [] with pc := 3 }).mode = .user ∧ ({ loaded [] with pc := 3 }).cfg.WF ∧
      ({ loaded [] with pc := 3 }).Reliable ∧ ({ loaded [] with pc := 3 }).mem.WF ∧
      ({ loaded [] with pc := 3 }).interruptDispatch 2 .software = .ok () dispatched3 ∧
      ({ dispatched3 with pc := 1505, ac := 9 }).cfg = dispatched3.cfg ∧
      ({ dispatched3 with pc := 1505, ac := 9 }).mode = .kernel ∧
      ({ dispatched3 with pc := 1505, ac := 9 }).sp = Config.reference.kstackTop - 2 ∧
      ({ dispatched3 with pc := 1505, ac := 9 }).mem = dispatched3.mem :=
  ⟨by decide, by decide, by decide, by decide, by decide +kernel, by decide, by decide, by decide, by decide⟩

/-- Program P4 at its third step: an IRet at 1500 with the timer pending. -/
def deferred : State :=
  { kernelAt 1500 [(1500, 30), (1998, 2), (1999, 1000)] with sp := 1998, count := 2, timerLimit := 2 }

theorem witness_DeferredTimerFiresAtIRet :
    (deferred.status = .running ∧ deferred.mode = .kernel ∧ deferred.count = deferred.timerLimit ∧ deferred.cfg.WF ∧
      deferred.Reliable ∧ deferred.mem.WF ∧ deferred.accessFault 1500 .fetch 1500 = none ∧
      deferred.accessFault 1500 .data 1998 = none ∧ deferred.accessFault 1500 .data 1999 = none) ∧
      deferred.nextOpcodeIs .iRet := ⟨by decide, _, rfl, rfl⟩

/-- ExecWritesOnlyTabledRegisters, ExecStoresOnlyWhereStated, OnlyPutEmitsAndOnlyGetDraws, ExecIssuesTabledRequests,
UserInstructionsRequestOnlyUserMemory: a Push that completes, and a Put. -/
theorem witness_exec_next :
    (nextOf (exec .push { loaded [] with ac := 7, pc := 1 })).map (fun t => (t.status, t.sp, t.mem.read 999)) =
        some (.running, 999, 7) ∧
      .ac ∉ regsWritten .push ∧ 998 ∉ storesTo { loaded [] with ac := 7, pc := 1 } .push ∧
      (nextOf (exec (.put 1) (loaded []))).map (fun t => t.status) = some .running ∧ (loaded []).mode = .user := by decide

theorem witness_ExecWritesOnlyTabledRegisters_int :
    (nextOf (exec .int (withKint (kernelAt 1601 []) .nop))).map (fun t => t.mode) = some .kernel := by decide

/-- ExecReadsOnlyTabledRegisters: an instruction for each of its six clauses. -/
theorem witness_ExecReadsOnlyTabledRegisters :
    (.ac ∉ regsRead (.jump 4) ∧ .ac ∉ regsWritten (.jump 4)) ∧ (.x ∉ regsRead .addY ∧ .x ∉ regsWritten .addY) ∧
      (.y ∉ regsRead .addX ∧ .y ∉ regsWritten .addX) ∧
      (.ac ∉ regsRead (.loadAddr 999) ∧ .ac ∈ regsWritten (.loadAddr 999) ∧
        (nextOf (exec (.loadAddr 999) { loaded [] with pc := 2 })).map (fun t => t.status) = some .running) ∧
      (.x ∉ regsRead .copyToX ∧ .x ∈ regsWritten .copyToX) ∧ (.y ∉ regsRead .copyToY ∧ .y ∈ regsWritten .copyToY) := by
  decide

/-- CountMovesOnlyAsStated, StepKeepsLimitAndConfiguration, MemoryIsTheReplayedTrace: a step that counts, and one whose
timer fires. -/
theorem witness_steps :
    (after (loaded [(0, 25)])).map (fun t => (t.count, t.mode)) = some (1, .user) ∧
      (after nearLimit).map (fun t => (t.count, t.mode)) = some (0, .kernel) ∧
      nearLimit.cfg.transportFallible = false := by decide

/-- ExecIssuesTabledRequests and UserInstructionsRequestOnlyUserMemory, of a step: one that goes on with no dispatch, and one
whose dispatch adds its two Writes. -/
theorem witness_step_requests :
    (loaded [(0, 7), (1, 999)]).mode = .user ∧
      (after (loaded [(0, 7), (1, 999)])).map (fun t => (t.status, t.trace)) =
        some (.running, [.read 0, .read 1, .write 999 0]) ∧
      (after nearLimit).map (fun t => (t.status, t.trace)) =
        some (.running, [.read 0, .write 1999 1000, .write 1998 1]) := by decide

/-- RunRepeatsStepAndNeedNotEnd: an ended state, a running one, and a run of a state with the invariant. -/
theorem witness_run :
    ({ State.reset with status := .halted }).status ≠ .running ∧ nearLimit.status = .running ∧ nearLimit.Inv ∧
      (nextOf (run 1 nearLimit)).map (fun t => t.status) = some .running :=
  ⟨by decide, by decide, witness_StepKeepsInv.1, by decide⟩

/-- ModeChangesOnlyByDispatchAndIRet: the timer, the software interrupt, and the return. -/
theorem witness_ModeChangesOnlyByDispatchAndIRet :
    nearLimit.cfg.WF ∧ deferred.cfg.WF ∧ (after nearLimit).map (fun t => (t.mode, t.status)) = some (.kernel, .running) ∧
      (after (loaded [(0, 29)])).map (fun t => (t.mode, t.status)) = some (.kernel, .running) ∧
      (after { deferred with count := 1 }).map (fun t => t.mode) = some .user := by decide

/-- UserStepCannotChangeKernelMemory: a step that ends in User mode, and one that ends in Kernel mode. -/
theorem witness_UserStepCannotChangeKernelMemory :
    Config.reference.WF ∧ (loaded [(0, 25), (1000, 30)]).mode = .user ∧
      (after (loaded [(0, 25), (1000, 30)])).map (fun t => (t.mode, t.mem.read 1000)) = some (.user, 30) ∧
      (after (loaded [(0, 29), (1997, 8)])).map (fun t => (t.mode, t.mem.read 1997)) = some (.kernel, 8) ∧
      (1997 : Nat) ≠ (Config.reference.kstackTop - 1).toNat ∧ (1997 : Nat) ≠ (Config.reference.kstackTop - 2).toNat := by
  decide

/-- UserStepCannotReadKernelMemory: two memories that differ in the first protected word alone. -/
theorem witness_UserStepCannotReadKernelMemory :
    (loaded [(0, 25), (1000, 1)]).mem.WF ∧ (image [(0, 25), (1000, 2)]).WF ∧
      (loaded [(0, 25), (1000, 1)]).mem.AgreeBelow Config.reference.userLimit (image [(0, 25), (1000, 2)]) ∧
      (loaded [(0, 25), (1000, 1)]).mem ≠ image [(0, 25), (1000, 2)] := by
  refine ⟨by decide, by decide, fun a ha => ?_, by decide⟩
  have h : (1000 : Nat) ≠ a := by simp only [Config.reference] at ha; omega
  show readCells [(0, 25), (1000, 1)] a = readCells [(0, 25), (1000, 2)] a
  simp [readCells, h]

/-- FailedRequestEndsTheRun and UnansweredReadIsStuck: what they assume; neither assumes the free value. -/
theorem witness_transport :
    ({ Config.reference with transportFallible := true }).transportMayHang = false ∧
      ({ State.reset with cfg := { Config.reference with transportMayHang := true } }).accessFault 0 .fetch 0 = none ∧
      ({ Config.reference with transportMayHang := true }).transportFallible = false := by decide

end Sys2Proof.Tests
end

section
/-! PROOFS of the family 00_scope.md: which launches are refused, and that every step keeps the invariant of the machine. -/

namespace Sys2Proof.Machine

/-! ### The launch -/

/-- Settles O7: the checks of a launch stand in the order of the clauses. -/
theorem launchRefusesExactlyBadInputs : Obligations.LaunchRefusesExactlyBadInputs := by
  intro c l
  unfold launch
  refine ⟨fun hc => if_pos hc, fun hc hl => ?_, fun hc hl hw => ?_, fun hc hl hw hi => ?_, fun hc hl hw hm hb => ?_⟩
  · rw [if_neg (not_not_intro hc), if_pos hl]
  · rw [if_neg (not_not_intro hc), if_neg (by omega), if_pos hw]
  · rw [if_neg (not_not_intro hc), if_neg (by omega), if_neg (not_not_intro hw), if_pos hi]
  · obtain ⟨hpos, -⟩ := hl
    exact ⟨launchState c l, by
      rw [if_neg (not_not_intro hc), if_neg (by omega), if_neg (not_not_intro hw), if_neg (not_not_intro ⟨hm, hb⟩)]⟩

/-! ### The invariant inside a step

Between its count and its timer check a step may stand in User mode at the limit, so `Inv.countBelow` fails there. The other
parts of the invariant hold all along, and Terminate is not sent while the run goes on. -/

/-- The invariant of a running machine inside a step: `State.Inv` without `countBelow`. -/
structure State.MidStep (s : State) : Prop where
  cfgWF : s.cfg.WF
  running : s.status = .running
  memWF : s.mem.WF
  memBelow : s.mem.Below s.cfg.memWords
  memFits : ∀ p ∈ s.mem.cells, s.cfg.IsWord p.2
  acFits : s.cfg.IsWord s.ac
  xFits : s.cfg.IsWord s.x
  yFits : s.cfg.IsWord s.y
  spFits : s.cfg.IsWord s.sp
  pcFits : s.cfg.IsWord s.pc
  irFits : s.cfg.IsWord s.ir
  limitFits : s.cfg.IsWord s.timerLimit
  limitPos : 1 ≤ s.timerLimit
  countBounds : 0 ≤ s.count ∧ s.count ≤ s.timerLimit
  traceInRange : ∀ r ∈ s.trace, r.InRange s.cfg.memWords
  notTerminated : Request.terminate ∉ s.trace

/-- The run has ended, in a state of the invariant. -/
def State.EndedInv (s : State) : Prop := s.Inv ∧ s.status ≠ .running

/-- In User mode the count of a step stays below the wrap, because the timer limit is a word (R27, R41). -/
theorem State.Inv.countedStep_bounds {s : State} (h : s.Inv) (hs : s.status = .running) :
    0 ≤ s.countedStep ∧ s.countedStep ≤ s.timerLimit := by
  obtain ⟨h0, hle⟩ := h.countBounds
  unfold State.countedStep
  split_ifs with hm
  · have hlt := h.countBelow hs hm
    obtain ⟨-, -, -, -, -, -, -, hlimit⟩ := h.regsFit
    have hpow := two_pow_pos' (s.cfg.wordBits - 1)
    have hword : s.cfg.IsWord (s.count + 1) := ⟨by omega, by omega⟩
    rw [h.cfgWF.wrap_eq hword]
    omega
  · exact ⟨h0, hle⟩

/-- A state of the invariant, counted, with ir and pc words and the Reads of a fetch in the trace, is inside a step
(R90 parts 1 and 2). -/
theorem State.Inv.fetched_midStep {s : State} (h : s.Inv) (hs : s.status = .running) {pc0 ir' pc' : Int}
    {rs : List Request} (hrs : FetchReads s pc0 rs) (hir : s.cfg.IsWord ir') (hpc : s.cfg.IsWord pc') :
    ({ s with count := s.countedStep, ir := ir', pc := pc', trace := s.trace ++ rs } : State).MidStep := by
  obtain ⟨hac, hx, hy, hsp, -, -, hlimit⟩ := h.regsFit
  have hno : Request.terminate ∉ s.trace := by
    have := h.terminateLast
    rwa [TerminateOnlyLast, if_pos hs] at this
  exact
    { cfgWF := h.cfgWF, running := hs, memWF := h.memWF, memBelow := h.memBelow, memFits := h.memFits
      acFits := hac, xFits := hx, yFits := hy, spFits := hsp, pcFits := hpc, irFits := hir, limitFits := hlimit
      limitPos := h.limitPos
      countBounds := h.countedStep_bounds hs
      traceInRange := by
        intro r hr
        rcases List.mem_append.mp hr with hr | hr
        · exact h.traceInRange r hr
        · obtain ⟨a, kind, rfl, hn⟩ := hrs r hr
          exact (State.accessFault_none.mp hn).2
      notTerminated := by
        intro hr
        rcases List.mem_append.mp hr with hr | hr
        · exact hno hr
        · obtain ⟨a, kind, e, -⟩ := hrs _ hr
          cases e }

namespace State.MidStep

variable {s t : State} {pc0 a v : Int}

/-! #### How a step ends -/

/-- A step that leaves the run running keeps the invariant, unless the timer is due (R221). -/
theorem inv (h : s.MidStep) (hb : s.mode = .user → s.count ≠ s.timerLimit) : s.Inv where
  cfgWF := h.cfgWF
  memWF := h.memWF
  memBelow := h.memBelow
  regsFit := ⟨h.acFits, h.xFits, h.yFits, h.spFits, h.pcFits, h.irFits, h.limitFits⟩
  memFits := h.memFits
  limitPos := h.limitPos
  countBounds := h.countBounds
  countBelow := fun _ hm => lt_of_le_of_ne h.countBounds.2 (hb hm)
  traceInRange := h.traceInRange
  terminateLast := by rw [TerminateOnlyLast, if_pos h.running]; exact h.notTerminated

/-- Ending the run inside a step keeps the invariant: Terminate is sent once and last (R58, R201). -/
theorem endedWith (h : s.MidStep) {o : RunStatus} (ho : o ≠ .running) : (s.endedWith o).EndedInv where
  left :=
    { cfgWF := h.cfgWF
      memWF := h.memWF
      memBelow := h.memBelow
      regsFit := ⟨h.acFits, h.xFits, h.yFits, h.spFits, h.pcFits, h.irFits, h.limitFits⟩
      memFits := h.memFits
      limitPos := h.limitPos
      countBounds := h.countBounds
      countBelow := fun hs => absurd hs ho
      traceInRange := by
        intro r hr
        rcases List.mem_append.mp hr with hr | hr
        · exact h.traceInRange r hr
        · rw [List.mem_singleton.mp hr]; trivial
      terminateLast := by
        rw [TerminateOnlyLast, State.endedWith_status, if_neg ho]
        exact ⟨s.trace, rfl, h.notTerminated⟩ }
  right := ho

/-! #### The operations on the state -/

theorem setAc (h : s.MidStep) (hv : s.cfg.IsWord v) : (s.setAc v).MidStep := { h with acFits := hv }
theorem setX (h : s.MidStep) (hv : s.cfg.IsWord v) : (s.setX v).MidStep := { h with xFits := hv }
theorem setY (h : s.MidStep) (hv : s.cfg.IsWord v) : (s.setY v).MidStep := { h with yFits := hv }
theorem setSp (h : s.MidStep) (hv : s.cfg.IsWord v) : (s.setSp v).MidStep := { h with spFits := hv }
theorem setPc (h : s.MidStep) (hv : s.cfg.IsWord v) : (s.setPc v).MidStep := { h with pcFits := hv }
theorem setMode (h : s.MidStep) (m : Mode) : (s.setMode m).MidStep := { h with }
theorem emit (h : s.MidStep) (e : OutEvent) : (s.emit e).MidStep := { h with }
theorem countDraw (h : s.MidStep) : s.countDraw.MidStep := { h with }

theorem setCount_zero (h : s.MidStep) : (s.setCount 0).MidStep :=
  { h with countBounds := ⟨le_refl 0, le_trans zero_le_one h.limitPos⟩ }

theorem request (h : s.MidStep) {r : Request} (hr : r.InRange s.cfg.memWords) (hne : r ≠ .terminate) :
    (s.request r).MidStep :=
  { h with
    traceInRange := by
      intro q hq
      rcases List.mem_append.mp hq with hq | hq
      · exact h.traceInRange q hq
      · rw [List.mem_singleton.mp hq]; exact hr
    notTerminated := by
      intro hq
      rcases List.mem_append.mp hq with hq | hq
      · exact h.notTerminated hq
      · exact hne (List.mem_singleton.mp hq).symm }

/-- A Read that passed the checks is in range (R55, R59). -/
theorem requestRead (h : s.MidStep) {kind : AccessKind} (hn : s.accessFault pc0 kind a = none) :
    (s.request (.read a)).MidStep :=
  h.request (State.accessFault_none.mp hn).2 (by simp)

/-- A Write that passed the checks is in range (R55, R59). -/
theorem requestWrite (h : s.MidStep) {kind : AccessKind} (hn : s.accessFault pc0 kind a = none) (v : Int) :
    (s.request (.write a v)).MidStep :=
  h.request (State.accessFault_none.mp hn).2 (by simp)

theorem setWord (h : s.MidStep) (h0 : 0 ≤ a) (ha : a < (s.cfg.memWords : Int)) (hv : s.cfg.IsWord v) :
    (s.setWord a v).MidStep :=
  { h with
    memWF := Memory.write_wf h.memWF _ _
    memBelow := Memory.write_below h.memBelow (by omega) _
    memFits := Memory.write_fits h.memFits _ hv }

/-- A checked write that is performed (R54, R57). -/
theorem storeWord (h : s.MidStep) {kind : AccessKind} (hn : s.accessFault pc0 kind a = none) (hv : s.cfg.IsWord v) :
    ((s.request (.write a v)).setWord a v).MidStep := by
  obtain ⟨-, h0, ha⟩ := State.accessFault_none.mp hn
  exact (h.requestWrite hn v).setWord h0 ha hv

/-! #### The words an instruction writes -/

theorem wrap_isWord (h : s.MidStep) (v : Int) : s.cfg.IsWord (s.cfg.wrap v) := h.cfgWF.wrap_isWord v

theorem read_isWord (h : s.MidStep) (n : Nat) : s.cfg.IsWord (s.mem.read n) := Memory.read_isWord h.memFits n

/-- The environment's draw is a word, whatever it is: WORD_BITS is at least 8 (R131). -/
theorem draw_isWord (h : s.MidStep) : s.cfg.IsWord s.draw := by
  obtain ⟨-, -, -, -, -, -, hbits, -⟩ := h.cfgWF
  have hpow : (2 : Int) ^ 7 ≤ 2 ^ (s.cfg.wordBits - 1) := pow_le_pow_right₀ (by norm_num) (by omega)
  have hlt := (Config.freeDraw s.draws).isLt
  unfold State.draw
  exact ⟨by omega, by omega⟩

/-- A handler's entry is an address of the store (R9, R211). -/
theorem handlerBase_isWord (h : s.MidStep) (kind : InterruptKind) : s.cfg.IsWord (s.handlerBase kind) := by
  obtain ⟨-, ⟨htimer, htimer'⟩, ⟨hswi, hswi'⟩, -⟩ := h.cfgWF
  cases kind with
  | timer => exact h.cfgWF.isWord_of_address (le_trans (Int.natCast_nonneg _) htimer) htimer'.le
  | software => exact h.cfgWF.isWord_of_address (le_trans (Int.natCast_nonneg _) hswi) hswi'.le

/-! #### The accesses, the dispatch and the execute phase -/

theorem readStopped (h : s.MidStep) (ht : ReadStopped s pc0 a t) : t.EndedInv := by
  rcases ht with ⟨o, ho, rfl⟩ | ⟨hn, -, rfl⟩
  · exact h.endedWith (State.accessFault_ne_running ho)
  · exact (h.requestRead hn).endedWith (by simp)

theorem writeStopped (h : s.MidStep) (ht : WriteStopped s pc0 a v t) : t.EndedInv := by
  rcases ht with ⟨o, ho, rfl⟩ | ⟨hn, -, rfl⟩
  · exact h.endedWith (State.accessFault_ne_running ho)
  · exact (h.requestWrite hn v).endedWith (by simp)

theorem loadLeaves (h : s.MidStep) (ht : LoadLeaves s pc0 a t) : t.MidStep ∨ t.EndedInv := by
  rcases ht with ht | ⟨hn, rfl⟩
  · exact .inr (h.readStopped ht)
  · exact .inl ((h.requestRead hn).setAc (h.read_isWord _))

theorem dispatchBegun (h : s.MidStep) (kind : InterruptKind) : (s.dispatchBegun kind).MidStep := by
  have hw := h.wrap_isWord (s.cfg.kstackTop - 1)
  cases kind with
  | timer => exact (h.setCount_zero.setMode .kernel).setSp hw
  | software => exact (h.setMode .kernel).setSp hw

theorem dispatchHalf (h : s.MidStep) {kind : InterruptKind}
    (hn : (s.dispatchBegun kind).accessFault pc0 .write (s.cfg.wrap (s.cfg.kstackTop - 1)) = none) :
    (s.dispatchHalf kind).MidStep :=
  ((h.dispatchBegun kind).storeWord hn h.spFits).setSp (h.wrap_isWord (s.cfg.wrap (s.cfg.kstackTop - 1) - 1))

theorem dispatched (h : s.MidStep) {kind : InterruptKind}
    (hn : (s.dispatchBegun kind).accessFault pc0 .write (s.cfg.wrap (s.cfg.kstackTop - 1)) = none)
    (hm : (s.dispatchBegun kind).accessFault pc0 .write (s.cfg.wrap (s.cfg.wrap (s.cfg.kstackTop - 1) - 1)) = none) :
    (s.dispatched kind).MidStep := by
  have hm' : (s.dispatchHalf kind).accessFault pc0 .write (s.cfg.wrap (s.cfg.wrap (s.cfg.kstackTop - 1) - 1)) = none :=
    (State.accessFault_congr rfl rfl _ _ _).trans hm
  exact ((h.dispatchHalf hn).storeWord hm' h.pcFits).setPc (h.handlerBase_isWord kind)

/-- A dispatch leaves a running machine in Kernel mode, or an ended run (R212). -/
theorem dispatchLeaves (h : s.MidStep) {kind : InterruptKind} (ht : DispatchLeaves s pc0 kind t) :
    (t.MidStep ∧ t.mode = .kernel) ∨ t.EndedInv := by
  rcases ht with ⟨rfl, hn, hm⟩ | ht | ⟨hn, ht⟩
  · exact .inl ⟨h.dispatched hn hm, rfl⟩
  · exact .inr ((h.dispatchBegun kind).writeStopped ht)
  · exact .inr ((h.dispatchHalf hn).writeStopped ht)

theorem returnHalf (h : s.MidStep) {kind : AccessKind} (hn : s.accessFault pc0 kind s.sp = none) :
    s.returnHalf.MidStep :=
  ((h.requestRead hn).setSp (h.wrap_isWord (s.sp + 1))).setPc (h.read_isWord s.sp.toNat)

/-- The push of a word that passed the checks (R24). -/
theorem pushWord (h : s.MidStep) (hn : s.accessFault pc0 .write s.addrPush = none) (hv : s.cfg.IsWord v) :
    (((s.setSp s.addrPush).request (.write s.addrPush v)).setWord s.addrPush v).MidStep :=
  (h.setSp (h.wrap_isWord (s.sp - 1))).storeWord (pc0 := pc0) (kind := .write)
    ((State.accessFault_congr rfl rfl _ _ _).trans hn) hv

/-- The push of a word that ends the run (R24). -/
theorem pushStopped (h : s.MidStep) (ht : WriteStopped (s.setSp s.addrPush) pc0 s.addrPush v t) : t.EndedInv :=
  (h.setSp (h.wrap_isWord (s.sp - 1))).writeStopped ht

/-- The pop of a word that passed the checks (R24). -/
theorem popWord (h : s.MidStep) (hn : s.accessFault pc0 .data s.sp = none) :
    ((s.request (.read s.sp)).setSp (s.cfg.wrap (s.sp + 1))).MidStep :=
  (h.requestRead hn).setSp (h.wrap_isWord (s.sp + 1))

/-- Int in Kernel mode, for each KINT_ACTION (R190). -/
theorem kernelInt (h : s.MidStep) (pc0 : Int) (act : KIntAction) :
    (s.kernelInt pc0 act).MidStep ∨ (s.kernelInt pc0 act).EndedInv := by
  cases act with
  | halt => exact .inr (h.endedWith (by simp))
  | nop => exact .inl h
  | fault => exact .inr (h.endedWith (by simp))

/-- The execute phase of a well-formed instruction keeps the invariant inside the step, or ends the run. -/
theorem execLeaves (h : s.MidStep) {i : Instr} (hi : i.wellFormed s.cfg.wordBits = true) (ht : ExecLeaves s t i) :
    t.MidStep ∨ t.EndedInv := by
  cases i with
  | loadImm op => subst ht; exact .inl (h.setAc (of_decide_eq_true hi))
  | loadAddr op => exact h.loadLeaves ht
  | loadIdxX op => exact h.loadLeaves ht
  | loadIdxY op => exact h.loadLeaves ht
  | loadSpX => exact h.loadLeaves ht
  | loadInd op =>
    rcases ht with ht | ⟨hn, ht⟩
    · exact .inr (h.readStopped ht)
    · exact (h.requestRead hn).loadLeaves ht
  | store op =>
    rcases ht with ht | ⟨hn, rfl⟩
    · exact .inr (h.writeStopped ht)
    · exact .inl (h.storeWord hn h.acFits)
  | get => subst ht; exact .inl (h.setAc h.draw_isWord).countDraw
  | put op => subst ht; exact .inl (h.emit _)
  | addX => subst ht; exact .inl (h.setAc (h.wrap_isWord _))
  | addY => subst ht; exact .inl (h.setAc (h.wrap_isWord _))
  | subX => subst ht; exact .inl (h.setAc (h.wrap_isWord _))
  | subY => subst ht; exact .inl (h.setAc (h.wrap_isWord _))
  | copyToX => subst ht; exact .inl (h.setX h.acFits)
  | copyFromX => subst ht; exact .inl (h.setAc h.xFits)
  | copyToY => subst ht; exact .inl (h.setY h.acFits)
  | copyFromY => subst ht; exact .inl (h.setAc h.yFits)
  | copyToSp => subst ht; exact .inl (h.setSp h.acFits)
  | copyFromSp => subst ht; exact .inl (h.setAc h.spFits)
  | jump op => subst ht; exact .inl (h.setPc (of_decide_eq_true hi))
  | jumpIfEqual op =>
    subst ht
    split_ifs
    · exact .inl (h.setPc (of_decide_eq_true hi))
    · exact .inl h
  | jumpIfNotEqual op =>
    subst ht
    split_ifs
    · exact .inl h
    · exact .inl (h.setPc (of_decide_eq_true hi))
  | call op =>
    rcases ht with ht | ⟨hn, rfl⟩
    · exact .inr (h.pushStopped ht)
    · exact .inl ((h.pushWord hn h.pcFits).setPc (of_decide_eq_true hi))
  | ret =>
    rcases ht with ht | ⟨hn, rfl⟩
    · exact .inr (h.readStopped ht)
    · exact .inl ((h.popWord hn).setPc (h.read_isWord _))
  | incX => subst ht; exact .inl (h.setX (h.wrap_isWord _))
  | decX => subst ht; exact .inl (h.setX (h.wrap_isWord _))
  | push =>
    rcases ht with ht | ⟨hn, rfl⟩
    · exact .inr (h.pushStopped ht)
    · exact .inl (h.pushWord hn h.acFits)
  | pop =>
    rcases ht with ht | ⟨hn, rfl⟩
    · exact .inr (h.readStopped ht)
    · exact .inl ((h.popWord hn).setAc (h.read_isWord _))
  | int =>
    rcases ht with ⟨-, ht⟩ | ⟨-, rfl⟩
    · exact (h.dispatchLeaves ht).imp_left And.left
    · exact h.kernelInt _ _
  | iRet =>
    rcases ht with ht | ⟨hn, ht | ⟨hm, rfl⟩⟩
    · exact .inr (h.readStopped ht)
    · exact .inr ((h.returnHalf hn).readStopped ht)
    · have hm' : s.returnHalf.accessFault s.pc0Z .data (s.cfg.wrap (s.sp + 1)) = none :=
        (State.accessFault_congr rfl rfl _ _ _).trans hm
      exact .inl ((((h.returnHalf hn).requestRead hm').setSp (h.read_isWord _)).setMode .user)
  | endRun => subst ht; exact .inr (h.endedWith (by simp))

end State.MidStep

/-! ### The step -/

/-- A step whose fetch or decode ends the run keeps the invariant. -/
theorem State.Inv.stepFetch_ended {s t : State} (h : s.Inv) (hs : s.status = .running)
    (hf : s.countStep.fetchInstr s.pc = .ended t) : t.Inv := by
  obtain ⟨-, -, -, -, hpcFits, hirFits, -⟩ := h.regsFit
  obtain ⟨ir', pc', rs, o, hrs, ho, hir, hpc, rfl⟩ := State.stepFetch_ended hf
  have hir' : s.cfg.IsWord ir' := by
    rcases hir with rfl | rfl
    · exact hirFits
    · exact Memory.read_isWord h.memFits _
  have hpc' : s.cfg.IsWord pc' := by
    rcases hpc with rfl | rfl
    · exact hpcFits
    · exact h.cfgWF.wrap_isWord _
  exact ((h.fetched_midStep hs hrs hir' hpc').endedWith ho).1

/-- A step whose fetch goes through hands a state inside the step, and a well-formed instruction, to the execute phase. -/
theorem State.Inv.stepFetch_ok {s v : State} {i : Instr} (h : s.Inv) (hs : s.status = .running)
    (hf : s.countStep.fetchInstr s.pc = .ok i v) : v.MidStep ∧ i.wellFormed v.cfg.wordBits = true := by
  obtain ⟨hn, hop, ⟨rest, hd⟩, rfl⟩ := State.stepFetch_ok hf
  exact ⟨h.fetched_midStep hs (State.fetchRequests_reads hn hop) (Memory.read_isWord h.memFits _) (h.cfgWF.wrap_isWord _),
    decode_wellFormed (Memory.read_isWord h.memFits _) hd⟩

/-- Where the timer check of a running machine takes no interrupt, the invariant holds again (R221). -/
theorem State.MidStep.inv_of_not_timerFires {s : State} (h : s.MidStep) (ht : s.timerFires = false) : s.Inv :=
  h.inv fun hm hc => by simp [State.timerFires, h.running, hm, hc] at ht

/-- The timer is taken in a running state only (R221). -/
theorem State.running_of_timerFires {s : State} (h : s.timerFires = true) : s.status = .running := by
  simp only [State.timerFires, Bool.and_eq_true, beq_iff_eq] at h
  obtain ⟨⟨hs, -⟩, -⟩ := h
  exact hs

/-- The timer check that ends a step restores the invariant (R90 part 4). -/
theorem State.MidStep.timerCheck_inv {u t : State} {pc0 : Int} (h : u.MidStep ∨ u.EndedInv)
    (ht : (u.timerFires = false ∧ t = u) ∨ (u.timerFires = true ∧ DispatchLeaves u pc0 .timer t)) : t.Inv := by
  rcases h with hu | ⟨hinv, hended⟩
  · rcases ht with ⟨hoff, rfl⟩ | ⟨-, hd⟩
    · exact hu.inv_of_not_timerFires hoff
    · rcases hu.dispatchLeaves hd with ⟨hmid, hkernel⟩ | hend
      · exact hmid.inv fun hm => by rw [hkernel] at hm; cases hm
      · exact hend.1
  · rcases ht with ⟨-, rfl⟩ | ⟨hon, -⟩
    · exact hinv
    · exact absurd (State.running_of_timerFires hon) hended

/-- Settles O11: the invariant weakens to `MidStep` inside the step, and the timer check restores it. -/
theorem stepKeepsInv : Obligations.StepKeepsInv := by
  intro s t h hstep
  obtain ⟨hs, hf | ⟨i, v, u, hf, hexec, htimer⟩⟩ := step_next hstep
  · exact h.stepFetch_ended hs hf
  · obtain ⟨hv, hi⟩ := h.stepFetch_ok hs hf
    exact State.MidStep.timerCheck_inv (hv.execLeaves hi (exec_next hexec)) htimer

end Sys2Proof.Machine
end

section
/-! PROOFS of the family 10_state.md: what each instruction writes, reads and leaves unchanged, the count, the ways between
the modes, and the state at the start of a run. -/

namespace Sys2Proof.Machine

/-! ### The start of a run -/

/-- All a launch that is not refused did: its inputs passed every check (R253), and the run stands at R40's state. -/
theorem launch_next {c : Config} {l : LaunchInputs} {s : State} (h : launch c l = .next s) :
    c.WF ∧ 1 ≤ l.timerLimit ∧ l.Words c ∧ l.image.WF ∧ l.image.Below c.memWords ∧ s = launchState c l := by
  unfold launch at h
  split_ifs at h with hc hl hw hi
  obtain ⟨hm, hb⟩ := hi
  cases h
  exact ⟨hc, by omega, hw, hm, hb, rfl⟩

/-- Settles O6: the fields of `launchState`, and the check on timerLimit. -/
theorem launchSetsTheResetState : Obligations.LaunchSetsTheResetState := by
  intro c l s h
  obtain ⟨-, hlimit, -, -, -, rfl⟩ := launch_next h
  exact ⟨rfl, rfl, rfl, rfl, rfl, hlimit, rfl, rfl, rfl, rfl, rfl, rfl, rfl, rfl⟩

/-- Settles O8: each value stands in `State.reset`. -/
theorem resetHasTheStatedValues : Obligations.ResetHasTheStatedValues :=
  ⟨rfl, rfl, rfl, rfl, rfl, rfl, rfl⟩

/-- The checks of a launch are what the invariant asks of the state at the start of a run (R40, R41). -/
theorem launchState_inv {c : Config} {l : LaunchInputs} (hc : c.WF) (hlimit : 1 ≤ l.timerLimit) (hw : l.Words c)
    (hm : l.image.WF) (hb : l.image.Below c.memWords) : (launchState c l).Inv := by
  obtain ⟨limitFits, acFits, xFits, yFits, irFits, memFits⟩ := hw
  have ⟨_, _, _, _, _, _, _, spFits, _⟩ := hc
  exact
    { cfgWF := hc
      memWF := hm
      memBelow := hb
      regsFit := ⟨acFits, xFits, yFits, spFits, hc.isWord_of_address le_rfl (Int.natCast_nonneg _), irFits, limitFits⟩
      memFits := memFits
      limitPos := hlimit
      countBounds := ⟨le_rfl, le_trans zero_le_one hlimit⟩
      countBelow := fun _ _ => hlimit
      traceInRange := fun r hr => absurd hr List.not_mem_nil
      terminateLast := List.not_mem_nil }

/-- Settles O10: a launch that is not refused passed the checks. -/
theorem invHoldsAtEveryLaunch : Obligations.InvHoldsAtEveryLaunch := by
  intro c l s h
  obtain ⟨hc, hlimit, hw, hm, hb, rfl⟩ := launch_next h
  exact launchState_inv hc hlimit hw hm hb

/-- Settles O9: `State.reset` is the start of a run of the reference configuration with nothing loaded. -/
theorem invHoldsAtReset : Obligations.InvHoldsAtReset :=
  launchState_inv (c := Config.reference) (l := ⟨100, 0, 0, 0, 0, ⟨[]⟩⟩) (by decide) (by decide) (by decide) (by decide)
    (by decide)

/-- Settles O17: the step asks the status first (R90, R91). -/
theorem endedRunHasNoStep : Obligations.EndedRunHasNoStep := fun _ hs => if_neg hs

/-! ### What an execute phase leaves unchanged (R37) -/

/-- What the execute phase of `i` keeps: every register R37's table does not give it, ir, count, timerLimit and the
configuration; the output log unless it is Put, and the draws unless it is Get. -/
structure ExecFrame (i : Instr) (s t : State) : Prop where
  ac : .ac ∉ regsWritten i → t.ac = s.ac
  x : .x ∉ regsWritten i → t.x = s.x
  y : .y ∉ regsWritten i → t.y = s.y
  sp : .sp ∉ regsWritten i → t.sp = s.sp
  pc : .pc ∉ regsWritten i → t.pc = s.pc
  mode : .mode ∉ regsWritten i → t.mode = s.mode
  ir : t.ir = s.ir
  count : t.count = s.count
  timerLimit : t.timerLimit = s.timerLimit
  cfg : t.cfg = s.cfg
  out : (∀ op, i ≠ .put op) → t.out = s.out
  draws : i ≠ .get → t.draws = s.draws

namespace ExecFrame

variable {i : Instr} {s t u : State} {pc0 a v : Int}

theorem refl (i : Instr) (s : State) : ExecFrame i s s where
  ac _ := rfl
  x _ := rfl
  y _ := rfl
  sp _ := rfl
  pc _ := rfl
  mode _ := rfl
  ir := rfl
  count := rfl
  timerLimit := rfl
  cfg := rfl
  out _ := rfl
  draws _ := rfl

/-! #### The operations on the state: a register is written where the table gives it to the instruction -/

theorem setAc (h : ExecFrame i s u) (v : Int) (hw : .ac ∈ regsWritten i := by simp [regsWritten]) :
    ExecFrame i s (u.setAc v) := { h with ac := absurd hw }

theorem setX (h : ExecFrame i s u) (v : Int) (hw : .x ∈ regsWritten i := by simp [regsWritten]) :
    ExecFrame i s (u.setX v) := { h with x := absurd hw }

theorem setY (h : ExecFrame i s u) (v : Int) (hw : .y ∈ regsWritten i := by simp [regsWritten]) :
    ExecFrame i s (u.setY v) := { h with y := absurd hw }

theorem setSp (h : ExecFrame i s u) (v : Int) (hw : .sp ∈ regsWritten i := by simp [regsWritten]) :
    ExecFrame i s (u.setSp v) := { h with sp := absurd hw }

theorem setPc (h : ExecFrame i s u) (v : Int) (hw : .pc ∈ regsWritten i := by simp [regsWritten]) :
    ExecFrame i s (u.setPc v) := { h with pc := absurd hw }

theorem setMode (h : ExecFrame i s u) (m : Mode) (hw : .mode ∈ regsWritten i := by simp [regsWritten]) :
    ExecFrame i s (u.setMode m) := { h with mode := absurd hw }

theorem request (h : ExecFrame i s u) (r : Request) : ExecFrame i s (u.request r) := { h with }
theorem setWord (h : ExecFrame i s u) (a v : Int) : ExecFrame i s (u.setWord a v) := { h with }
theorem endedWith (h : ExecFrame i s u) (o : RunStatus) : ExecFrame i s (u.endedWith o) := { h with }

theorem emit_put {op : Int} (h : ExecFrame (.put op) s u) (e : OutEvent) : ExecFrame (.put op) s (u.emit e) :=
  { h with out := fun hne => absurd rfl (hne op) }

theorem countDraw_get (h : ExecFrame .get s u) : ExecFrame .get s u.countDraw :=
  { h with draws := fun hne => absurd rfl hne }

/-! #### The accesses, the dispatch and the execute phase -/

theorem readStopped (h : ExecFrame i s u) (ht : ReadStopped u pc0 a t) : ExecFrame i s t := by
  rcases ht with ⟨o, -, rfl⟩ | ⟨-, -, rfl⟩
  · exact h.endedWith o
  · exact (h.request _).endedWith _

theorem writeStopped (h : ExecFrame i s u) (ht : WriteStopped u pc0 a v t) : ExecFrame i s t := by
  rcases ht with ⟨o, -, rfl⟩ | ⟨-, -, rfl⟩
  · exact h.endedWith o
  · exact (h.request _).endedWith _

theorem loadLeaves (h : ExecFrame i s u) (ht : LoadLeaves u pc0 a t)
    (hw : .ac ∈ regsWritten i := by simp [regsWritten]) : ExecFrame i s t := by
  rcases ht with ht | ⟨-, rfl⟩
  · exact h.readStopped ht
  · exact (h.request _).setAc _ hw

/-- The software dispatch writes sp, pc and the mode alone (R212). -/
theorem dispatchLeaves (ht : DispatchLeaves s pc0 .software t) : ExecFrame .int s t := by
  have begun : ExecFrame .int s (s.dispatchBegun .software) := ((refl .int s).setMode .kernel).setSp _
  have half : ExecFrame .int s (s.dispatchHalf .software) := ((begun.request _).setWord _ _).setSp _
  rcases ht with ⟨rfl, -, -⟩ | ht | ⟨-, ht⟩
  · exact ((half.request _).setWord _ _).setPc _
  · exact begun.writeStopped ht
  · exact half.writeStopped ht

/-- Int in Kernel mode, for each KINT_ACTION, writes no register (R190). -/
theorem kernelInt (pc0 : Int) (act : KIntAction) : ExecFrame i s (s.kernelInt pc0 act) := by
  cases act with
  | halt => exact (refl i s).endedWith .halted
  | nop => exact refl i s
  | fault => exact (refl i s).endedWith (.kernelIntFault pc0)

end ExecFrame

/-- Every execute phase has its frame: each register update stands in the instruction's row of R37's table. -/
theorem execLeaves_frame {i : Instr} {s t : State} (ht : ExecLeaves s t i) : ExecFrame i s t := by
  have h := ExecFrame.refl i s
  cases i with
  | loadImm op => subst ht; exact h.setAc _
  | loadAddr op => exact h.loadLeaves ht
  | loadIdxX op => exact h.loadLeaves ht
  | loadIdxY op => exact h.loadLeaves ht
  | loadSpX => exact h.loadLeaves ht
  | loadInd op =>
    rcases ht with ht | ⟨-, ht⟩
    · exact h.readStopped ht
    · exact (h.request _).loadLeaves ht
  | store op =>
    rcases ht with ht | ⟨-, rfl⟩
    · exact h.writeStopped ht
    · exact (h.request _).setWord _ _
  | get => subst ht; exact (h.setAc _).countDraw_get
  | put op => subst ht; exact h.emit_put _
  | addX => subst ht; exact h.setAc _
  | addY => subst ht; exact h.setAc _
  | subX => subst ht; exact h.setAc _
  | subY => subst ht; exact h.setAc _
  | copyToX => subst ht; exact h.setX _
  | copyFromX => subst ht; exact h.setAc _
  | copyToY => subst ht; exact h.setY _
  | copyFromY => subst ht; exact h.setAc _
  | copyToSp => subst ht; exact h.setSp _
  | copyFromSp => subst ht; exact h.setAc _
  | jump op => subst ht; exact h.setPc _
  | jumpIfEqual op =>
    subst ht
    split_ifs
    · exact h.setPc _
    · exact h
  | jumpIfNotEqual op =>
    subst ht
    split_ifs
    · exact h
    · exact h.setPc _
  | call op =>
    rcases ht with ht | ⟨-, rfl⟩
    · exact (h.setSp _).writeStopped ht
    · exact (((h.setSp _).request _).setWord _ _).setPc _
  | ret =>
    rcases ht with ht | ⟨-, rfl⟩
    · exact h.readStopped ht
    · exact ((h.request _).setSp _).setPc _
  | incX => subst ht; exact h.setX _
  | decX => subst ht; exact h.setX _
  | push =>
    rcases ht with ht | ⟨-, rfl⟩
    · exact (h.setSp _).writeStopped ht
    · exact ((h.setSp _).request _).setWord _ _
  | pop =>
    rcases ht with ht | ⟨-, rfl⟩
    · exact h.readStopped ht
    · exact ((h.request _).setSp _).setAc _
  | int =>
    rcases ht with ⟨-, ht⟩ | ⟨-, rfl⟩
    · exact ExecFrame.dispatchLeaves ht
    · exact ExecFrame.kernelInt _ _
  | iRet =>
    have half : ExecFrame .iRet s s.returnHalf := ((h.request _).setSp _).setPc _
    rcases ht with ht | ⟨-, ht | ⟨-, rfl⟩⟩
    · exact h.readStopped ht
    · exact half.readStopped ht
    · exact ((half.request _).setSp _).setMode _
  | endRun => subst ht; exact h.endedWith _

/-- The frame of an instruction that goes on or ends the run (R37). -/
theorem exec_frame {i : Instr} {s t : State} (h : exec i s = .next t) : ExecFrame i s t :=
  execLeaves_frame (exec_next h)

/-- Int in Kernel mode (R190): KINT_ACTION decides, and no dispatch is made. -/
theorem exec_int_kernel {s t : State} (hm : s.mode = .kernel) (h : exec .int s = .next t) :
    t = s.kernelInt s.pc0Z s.cfg.kintAction := by
  rcases exec_next h with ⟨hu, -⟩ | ⟨-, ht⟩
  · rw [hm] at hu; cases hu
  · exact ht

/-- Int in Kernel mode keeps the registers that a software dispatch writes. -/
theorem State.kernelInt_keeps (s : State) (pc0 : Int) (act : KIntAction) :
    (s.kernelInt pc0 act).sp = s.sp ∧ (s.kernelInt pc0 act).pc = s.pc ∧ (s.kernelInt pc0 act).mode = s.mode := by
  cases act <;> exact ⟨rfl, rfl, rfl⟩

/-- Settles O43: the frame of the execute phase, and Int in Kernel mode, which dispatches nothing. -/
theorem execWritesOnlyTabledRegisters : Obligations.ExecWritesOnlyTabledRegisters := by
  intro i s t h
  have hf := exec_frame h
  refine ⟨hf.ac, hf.x, hf.y, hf.sp, hf.pc, hf.mode, ?_, hf.ir, hf.count, hf.timerLimit, hf.cfg⟩
  rintro rfl hm
  rw [exec_int_kernel hm h]
  exact s.kernelInt_keeps _ _

/-- Settles O46: the frame of the execute phase, and Put's one event (R132). -/
theorem onlyPutEmitsAndOnlyGetDraws : Obligations.OnlyPutEmitsAndOnlyGetDraws := by
  intro i s t h
  have hf := exec_frame h
  refine ⟨hf.out, ?_, hf.draws⟩
  rintro op rfl
  have ht : t = s.emit (portEvent op s.ac) := exec_next h
  exact ⟨portEvent op s.ac, by rw [ht, State.emit_out]⟩

/-! ### Independence from a register that is not read (R37)

The shared operations (the checked accesses, the push, the pop, the dispatch, the return) look at no ac, x, y or count. An
update of one of these registers can be made before an instruction or after it, unless the instruction reads or writes the
register itself. -/

/-- An update of the state that the shared operations neither see nor undo. -/
structure AccessBlind (f : State → State) : Prop where
  sp : ∀ s, (f s).sp = s.sp
  pc : ∀ s, (f s).pc = s.pc
  mode : ∀ s, (f s).mode = s.mode
  mem : ∀ s, (f s).mem = s.mem
  trace : ∀ s, (f s).trace = s.trace
  cfg : ∀ s, (f s).cfg = s.cfg
  setSp : ∀ s v, (f s).setSp v = f (s.setSp v)
  setPc : ∀ s v, (f s).setPc v = f (s.setPc v)
  setMode : ∀ s m, (f s).setMode m = f (s.setMode m)
  setWord : ∀ s a v, (f s).setWord a v = f (s.setWord a v)
  request : ∀ s r, (f s).request r = f (s.request r)
  endedWith : ∀ s o, (f s).endedWith o = f (s.endedWith o)

/-- An update of the state that the execute phase of `i` neither sees nor undoes: `i` may write only registers the update
leaves alone, and read only registers the update keeps (R37). -/
structure ExecBlind (i : Instr) (f : State → State) : Prop extends AccessBlind f where
  readAc : (h : .ac ∈ regsRead i := by simp [regsRead]) → ∀ s, (f s).ac = s.ac
  readX : (h : .x ∈ regsRead i := by simp [regsRead]) → ∀ s, (f s).x = s.x
  readY : (h : .y ∈ regsRead i := by simp [regsRead]) → ∀ s, (f s).y = s.y
  draws : ∀ s, (f s).draws = s.draws
  setAc : (h : .ac ∈ regsWritten i := by simp [regsWritten]) → ∀ s v, (f s).setAc v = f (s.setAc v)
  setX : (h : .x ∈ regsWritten i := by simp [regsWritten]) → ∀ s v, (f s).setX v = f (s.setX v)
  setY : (h : .y ∈ regsWritten i := by simp [regsWritten]) → ∀ s v, (f s).setY v = f (s.setY v)
  emit : ∀ s e, (f s).emit e = f (s.emit e)
  countDraw : ∀ s, (f s).countDraw = f s.countDraw

/-- The result of a part of an instruction, with `f` done to the state it leaves. -/
def Access.mapState {α : Type} (f : State → State) : Access α → Access α
  | .ok v s => .ok v (f s)
  | .ended s => .ended (f s)
  | .stuck e => .stuck e

theorem Access.toOutcome_mapState {α : Type} (f : State → State) (r : Access α) :
    (r.mapState f).toOutcome = mapNext f r.toOutcome := by
  cases r <;> rfl

/-- An update passes through a part of an instruction if it passes through the part that follows. -/
theorem Access.bind_mapState {α β : Type} {f : State → State} {k k' : α → State → Access β}
    (hk : ∀ v s, k' v (f s) = (k v s).mapState f) (r : Access α) : (r.mapState f).bind k' = (r.bind k).mapState f := by
  cases r with
  | ok v s => exact hk v s
  | ended s => rfl
  | stuck e => rfl

namespace AccessBlind

variable {f : State → State} (hf : AccessBlind f) (s : State) (pc0 a v : Int)
include hf

theorem memRead : (f s).memRead a = (s.memRead a).mapState f := by
  unfold State.memRead State.requestFails State.readHangs
  rw [hf.cfg, hf.trace, hf.mem, hf.request]
  simp only [State.endRun_eq, hf.endedWith]
  split_ifs <;> rfl

theorem memWrite : (f s).memWrite a v = (s.memWrite a v).mapState f := by
  unfold State.memWrite State.requestFails
  rw [hf.cfg, hf.trace, hf.request, hf.setWord]
  simp only [State.endRun_eq, hf.endedWith]
  split_ifs <;> rfl

theorem load (kind : AccessKind) : (f s).load pc0 kind a = (s.load pc0 kind a).mapState f := by
  rw [State.load_eq, State.load_eq, State.accessFault_congr (hf.mode s) (hf.cfg s)]
  cases s.accessFault pc0 kind a with
  | some o => exact congrArg Access.ended (hf.endedWith s o)
  | none => exact hf.memRead s a

theorem store : (f s).store pc0 a v = (s.store pc0 a v).mapState f := by
  rw [State.store_eq, State.store_eq, State.accessFault_congr (hf.mode s) (hf.cfg s)]
  cases s.accessFault pc0 .write a with
  | some o => exact congrArg Access.ended (hf.endedWith s o)
  | none => exact hf.memWrite s a v

theorem loadAc (hac : ∀ s v, (f s).setAc v = f (s.setAc v)) : (f s).loadAc pc0 a = (s.loadAc pc0 a).mapState f := by
  unfold State.loadAc
  rw [hf.load]
  exact Access.bind_mapState (fun w t => congrArg (Access.ok ()) (hac t w)) _

theorem addrPush : (f s).addrPush = s.addrPush := by rw [State.addrPush, State.addrPush, hf.cfg, hf.sp]

theorem pushWord : (f s).pushWord pc0 v = (s.pushWord pc0 v).mapState f := by
  unfold State.pushWord
  rw [hf.addrPush, hf.setSp, hf.store]

theorem popWord : (f s).popWord pc0 = (s.popWord pc0).mapState f := by
  unfold State.popWord State.addrPop
  rw [hf.sp, hf.load]
  exact Access.bind_mapState (fun w t => by rw [hf.cfg, hf.sp, hf.setSp]; rfl) _

theorem enterHandler (kind : InterruptKind) : (f s).enterHandler pc0 kind = (s.enterHandler pc0 kind).mapState f := by
  have base : ∀ t, (f t).handlerBase kind = t.handlerBase kind := fun t => by
    cases kind <;> simp only [State.handlerBase, hf.cfg]
  unfold State.enterHandler
  rw [hf.addrPush, hf.setSp, hf.pc, hf.store]
  exact Access.bind_mapState (fun _ t => by rw [base, hf.setPc]; rfl) _

/-- The software dispatch does not look at count (R27, R212). -/
theorem softwareDispatch :
    (f s).interruptDispatch pc0 .software = (s.interruptDispatch pc0 .software).mapState f := by
  simp only [State.interruptDispatch, reduceCtorEq, if_false]
  rw [hf.setMode, hf.cfg, hf.setSp, hf.sp, hf.sp, hf.store]
  exact Access.bind_mapState (fun _ t => hf.enterHandler t pc0 .software) _

theorem interruptReturn : (f s).interruptReturn pc0 = (s.interruptReturn pc0).mapState f := by
  unfold State.interruptReturn State.addrPop
  rw [hf.sp, hf.load]
  refine Access.bind_mapState (fun t u => ?_) _
  simp only [hf.cfg, hf.sp, hf.setSp, hf.setPc, hf.load]
  exact Access.bind_mapState (fun w r => by rw [hf.setSp, hf.setMode]; rfl) _

theorem kernelInt (act : KIntAction) : (f s).kernelInt pc0 act = f (s.kernelInt pc0 act) := by
  cases act with
  | halt => exact hf.endedWith s _
  | nop => rfl
  | fault => exact hf.endedWith s _

theorem pc0Z : (f s).pc0Z = s.pc0Z := congrArg (· - 1) (hf.pc s)
theorem pc0O : (f s).pc0O = s.pc0O := congrArg (· - 2) (hf.pc s)

end AccessBlind

namespace ExecBlind

variable {f : State → State}

/-! #### The address of an indexed load is computed from registers the load reads (R117) -/

theorem addrIdxX {op : Int} (hf : ExecBlind (.loadIdxX op) f) (s : State) : (f s).addrIdxX op = s.addrIdxX op := by
  rw [State.addrIdxX, State.addrIdxX, hf.cfg, hf.readX (by simp [regsRead])]

theorem addrIdxY {op : Int} (hf : ExecBlind (.loadIdxY op) f) (s : State) : (f s).addrIdxY op = s.addrIdxY op := by
  rw [State.addrIdxY, State.addrIdxY, hf.cfg, hf.readY (by simp [regsRead])]

theorem addrSpX (hf : ExecBlind .loadSpX f) (s : State) : (f s).addrSpX = s.addrSpX := by
  rw [State.addrSpX, State.addrSpX, hf.cfg, hf.sp, hf.readX (by simp [regsRead])]

/-- An instruction whose parts an update passes through has an outcome the update passes through. -/
theorem outcome {α : Type} {r r' : Access α} (h : r' = r.mapState f) : r'.toOutcome = mapNext f r.toOutcome := by
  rw [h, Access.toOutcome_mapState]

/-- An update that the execute phase neither sees nor undoes can be made after it instead of before it. -/
theorem exec {i : Instr} (hf : ExecBlind i f) (s : State) : exec i (f s) = mapNext f (exec i s) := by
  cases i with
  | loadImm op => simp only [Machine.exec, execLoadImm, mapNext, hf.setAc]
  | loadAddr op =>
    simp only [Machine.exec, execLoadAddr, hf.pc0O, hf.loadAc s _ _ hf.setAc, Access.toOutcome_mapState]
  | loadInd op =>
    simp only [Machine.exec, execLoadInd, hf.pc0O, hf.load]
    exact outcome (Access.bind_mapState (fun p t => hf.loadAc t s.pc0O p hf.setAc) _)
  | loadIdxX op =>
    simp only [Machine.exec, execLoadIdxX, hf.pc0O, hf.addrIdxX, hf.loadAc s _ _ hf.setAc, Access.toOutcome_mapState]
  | loadIdxY op =>
    simp only [Machine.exec, execLoadIdxY, hf.pc0O, hf.addrIdxY, hf.loadAc s _ _ hf.setAc, Access.toOutcome_mapState]
  | loadSpX =>
    simp only [Machine.exec, execLoadSpX, hf.pc0Z, hf.addrSpX, hf.loadAc s _ _ hf.setAc, Access.toOutcome_mapState]
  | store op =>
    simp only [Machine.exec, execStore, hf.pc0O, hf.readAc, hf.store, Access.toOutcome_mapState]
  | get => simp only [Machine.exec, execGet, mapNext, State.draw, hf.draws, hf.setAc, hf.countDraw]
  | put op => simp only [Machine.exec, execPut, mapNext, hf.readAc, hf.emit]
  | addX => simp only [Machine.exec, execAddX, mapNext, hf.cfg, hf.readAc, hf.readX, hf.setAc]
  | addY => simp only [Machine.exec, execAddY, mapNext, hf.cfg, hf.readAc, hf.readY, hf.setAc]
  | subX => simp only [Machine.exec, execSubX, mapNext, hf.cfg, hf.readAc, hf.readX, hf.setAc]
  | subY => simp only [Machine.exec, execSubY, mapNext, hf.cfg, hf.readAc, hf.readY, hf.setAc]
  | copyToX => simp only [Machine.exec, execCopyToX, mapNext, hf.readAc, hf.setX]
  | copyFromX => simp only [Machine.exec, execCopyFromX, mapNext, hf.readX, hf.setAc]
  | copyToY => simp only [Machine.exec, execCopyToY, mapNext, hf.readAc, hf.setY]
  | copyFromY => simp only [Machine.exec, execCopyFromY, mapNext, hf.readY, hf.setAc]
  | copyToSp => simp only [Machine.exec, execCopyToSp, mapNext, hf.readAc, hf.setSp]
  | copyFromSp => simp only [Machine.exec, execCopyFromSp, mapNext, hf.sp, hf.setAc]
  | jump op => simp only [Machine.exec, execJump, mapNext, hf.setPc]
  | jumpIfEqual op =>
    have hzero : (f s).acIsZero = s.acIsZero := by simp only [State.acIsZero, hf.readAc]
    simp only [Machine.exec, execJumpIfEqual, hzero, hf.setPc]
    cases s.acIsZero <;> rfl
  | jumpIfNotEqual op =>
    have hzero : (f s).acIsZero = s.acIsZero := by simp only [State.acIsZero, hf.readAc]
    simp only [Machine.exec, execJumpIfNotEqual, hzero, hf.setPc]
    cases s.acIsZero <;> rfl
  | call op =>
    simp only [Machine.exec, execCall, hf.pc0O, hf.pc, hf.pushWord]
    exact outcome (Access.bind_mapState (fun _ t => congrArg (Access.ok ()) (hf.setPc t op)) _)
  | ret =>
    simp only [Machine.exec, execRet, hf.pc0Z, hf.popWord]
    exact outcome (Access.bind_mapState (fun v t => congrArg (Access.ok ()) (hf.setPc t v)) _)
  | incX => simp only [Machine.exec, execIncX, mapNext, hf.cfg, hf.readX, hf.setX]
  | decX => simp only [Machine.exec, execDecX, mapNext, hf.cfg, hf.readX, hf.setX]
  | push => simp only [Machine.exec, execPush, hf.pc0Z, hf.readAc, hf.pushWord, Access.toOutcome_mapState]
  | pop =>
    simp only [Machine.exec, execPop, hf.pc0Z, hf.popWord]
    exact outcome (Access.bind_mapState (fun v t => by rw [hf.setAc]; rfl) _)
  | int =>
    simp only [Machine.exec, execInt, hf.mode, hf.pc0Z, hf.cfg]
    cases s.mode with
    | user => exact outcome (hf.softwareDispatch s s.pc0Z)
    | kernel => exact congrArg _ (hf.kernelInt s s.pc0Z s.cfg.kintAction)
  | iRet => simp only [Machine.exec, execIRet, hf.pc0Z, hf.interruptReturn, Access.toOutcome_mapState]
  | endRun => exact congrArg _ (hf.endedWith s .halted)

end ExecBlind

/-! #### The registers a data instruction works on, and count, are such updates -/

theorem setAc_accessBlind (v : Int) : AccessBlind (·.setAc v) := by constructor <;> intros <;> rfl
theorem setX_accessBlind (v : Int) : AccessBlind (·.setX v) := by constructor <;> intros <;> rfl
theorem setY_accessBlind (v : Int) : AccessBlind (·.setY v) := by constructor <;> intros <;> rfl
theorem setCount_accessBlind (v : Int) : AccessBlind (·.setCount v) := by constructor <;> intros <;> rfl

theorem setAc_execBlind {i : Instr} (hr : .ac ∉ regsRead i) (hw : .ac ∉ regsWritten i) (v : Int) :
    ExecBlind i (·.setAc v) where
  toAccessBlind := setAc_accessBlind v
  readAc h := absurd h hr
  readX _ _ := rfl
  readY _ _ := rfl
  draws _ := rfl
  setAc h := absurd h hw
  setX _ _ _ := rfl
  setY _ _ _ := rfl
  emit _ _ := rfl
  countDraw _ := rfl

theorem setX_execBlind {i : Instr} (hr : .x ∉ regsRead i) (hw : .x ∉ regsWritten i) (v : Int) :
    ExecBlind i (·.setX v) where
  toAccessBlind := setX_accessBlind v
  readAc _ _ := rfl
  readX h := absurd h hr
  readY _ _ := rfl
  draws _ := rfl
  setAc _ _ _ := rfl
  setX h := absurd h hw
  setY _ _ _ := rfl
  emit _ _ := rfl
  countDraw _ := rfl

theorem setY_execBlind {i : Instr} (hr : .y ∉ regsRead i) (hw : .y ∉ regsWritten i) (v : Int) :
    ExecBlind i (·.setY v) where
  toAccessBlind := setY_accessBlind v
  readAc _ _ := rfl
  readX _ _ := rfl
  readY h := absurd h hr
  draws _ := rfl
  setAc _ _ _ := rfl
  setX _ _ _ := rfl
  setY h := absurd h hw
  emit _ _ := rfl
  countDraw _ := rfl

/-- No instruction reads or writes count (R27). -/
theorem setCount_execBlind (i : Instr) (v : Int) : ExecBlind i (·.setCount v) where
  toAccessBlind := setCount_accessBlind v
  readAc _ _ := rfl
  readX _ _ := rfl
  readY _ _ := rfl
  draws _ := rfl
  setAc _ _ _ := rfl
  setX _ _ _ := rfl
  setY _ _ _ := rfl
  emit _ _ := rfl
  countDraw _ := rfl

/-! #### A register that is written without being read: its old value is lost where the instruction goes on -/

/-- Where the run ends in a part of an instruction, its status is terminal. -/
def Access.EndsRun {α : Type} (r : Access α) : Prop := ∀ t, r = .ended t → t.status ≠ .running

theorem State.load_endsRun (s : State) (pc0 a : Int) (kind : AccessKind) : (s.load pc0 kind a).EndsRun := by
  intro t h
  rcases s.load_cases pc0 kind a with ⟨o, ho, e⟩ | ⟨-, -, e⟩ | ⟨-, -, e⟩ | ⟨-, e⟩ <;> rw [e] at h <;> cases h
  · exact State.accessFault_ne_running ho
  · simp

theorem Access.bind_endsRun {α β : Type} {r : Access α} {k : α → State → Access β} (hr : r.EndsRun)
    (hk : ∀ v s, (k v s).EndsRun) : (r.bind k).EndsRun := by
  cases r with
  | ok v s => exact hk v s
  | ended s => intro t h; cases h; exact hr s rfl
  | stuck e => intro t h; cases h

theorem State.popWord_endsRun (s : State) (pc0 : Int) : (s.popWord pc0).EndsRun :=
  Access.bind_endsRun (s.load_endsRun pc0 _ .data) fun _ _ _ h => by cases h

theorem Access.bind_assoc {α β γ : Type} (r : Access α) (k : α → State → Access β) (l : β → State → Access γ) :
    (r.bind k).bind l = r.bind fun v s => (k v s).bind l := by
  cases r <;> rfl

/-- The last part of an instruction that answers into ac. -/
def answerAc (w : Int) (t : State) : Access Unit := .ok () (t.setAc w)

/-- An answer put into ac replaces what ac held, where the run goes on. -/
theorem Access.answerAc_overwrites {r : Access Int} (hr : r.EndsRun) (v : Int) {t : State}
    (h : (r.bind answerAc).toOutcome = .next t) (ht : t.status = .running) :
    ((r.mapState (·.setAc v)).bind answerAc).toOutcome = .next t := by
  cases r with
  | ok w u => exact h
  | ended u => cases h; exact absurd ht (hr _ rfl)
  | stuck e => cases h

/-- A load into ac does not depend on what ac held, where the run goes on (R117). -/
theorem State.loadAc_overwrites {s t : State} {pc0 a : Int} (v : Int) (h : (s.loadAc pc0 a).toOutcome = .next t)
    (ht : t.status = .running) : ((s.setAc v).loadAc pc0 a).toOutcome = .next t := by
  have e : (s.setAc v).loadAc pc0 a = (((s.load pc0 .data a).mapState (·.setAc v)).bind answerAc) :=
    congrArg (Access.bind · answerAc) ((setAc_accessBlind v).load s pc0 a .data)
  rw [e]
  exact Access.answerAc_overwrites (s.load_endsRun pc0 a .data) v h ht

/-- An instruction that writes ac without reading it (R37): a load, Get, a copy from a register, or Pop. -/
theorem exec_overwrites_ac {i : Instr} {s t : State} (hr : .ac ∉ regsRead i) (hw : .ac ∈ regsWritten i) (v : Int)
    (h : exec i s = .next t) (ht : t.status = .running) : exec i (s.setAc v) = .next t := by
  cases i with
  | loadImm op => exact h
  | loadAddr op => exact State.loadAc_overwrites v h ht
  | loadIdxX op => exact State.loadAc_overwrites v h ht
  | loadIdxY op => exact State.loadAc_overwrites v h ht
  | loadSpX => exact State.loadAc_overwrites v h ht
  | loadInd op =>
    have e (w : State) : exec (.loadInd op) w =
        (((w.load w.pc0O .data op).bind fun p u => u.load w.pc0O .data p).bind answerAc).toOutcome :=
      congrArg Access.toOutcome (Access.bind_assoc _ _ _).symm
    have hblind : (((s.setAc v).load s.pc0O .data op).bind fun p w => w.load s.pc0O .data p) =
        ((s.load s.pc0O .data op).bind fun p w => w.load s.pc0O .data p).mapState (·.setAc v) := by
      rw [(setAc_accessBlind v).load s s.pc0O op .data]
      exact Access.bind_mapState (fun p w => (setAc_accessBlind v).load w s.pc0O p .data) _
    rw [e] at h ⊢
    rw [show (s.setAc v).pc0O = s.pc0O from rfl, hblind]
    exact Access.answerAc_overwrites
      (Access.bind_endsRun (s.load_endsRun _ _ _) fun p w => w.load_endsRun _ _ _) v h ht
  | get => exact h
  | copyFromX => exact h
  | copyFromY => exact h
  | copyFromSp => exact h
  | pop =>
    have e : exec .pop (s.setAc v) = (((s.popWord s.pc0Z).mapState (·.setAc v)).bind answerAc).toOutcome :=
      congrArg (fun r => (Access.bind r answerAc).toOutcome) ((setAc_accessBlind v).popWord s s.pc0Z)
    rw [e]
    exact Access.answerAc_overwrites (s.popWord_endsRun s.pc0Z) v h ht
  | addX => exact absurd (by simp [regsRead]) hr
  | addY => exact absurd (by simp [regsRead]) hr
  | subX => exact absurd (by simp [regsRead]) hr
  | subY => exact absurd (by simp [regsRead]) hr
  | store _ | put _ | copyToX | copyToY | copyToSp | jump _ | jumpIfEqual _ | jumpIfNotEqual _ | call _ | ret
  | incX | decX | push | int | iRet | endRun => simp [regsWritten] at hw

/-- CopyToX alone writes x without reading it (R37). -/
theorem eq_copyToX_of_regs {i : Instr} (hr : .x ∉ regsRead i) (hw : .x ∈ regsWritten i) : i = .copyToX := by
  cases i <;> simp [regsRead, regsWritten] at hr hw ⊢

/-- CopyToY alone writes y, and it does not read it (R37). -/
theorem eq_copyToY_of_regs {i : Instr} (hw : .y ∈ regsWritten i) : i = .copyToY := by
  cases i <;> simp [regsWritten] at hw ⊢

/-- Settles O44: an update of a register that is neither read nor written passes through the execute phase; one that is
written without being read is lost. -/
theorem execReadsOnlyTabledRegisters : Obligations.ExecReadsOnlyTabledRegisters := by
  intro i s v
  refine ⟨fun hr hw => (setAc_execBlind hr hw v).exec s, fun hr hw => (setX_execBlind hr hw v).exec s,
    fun hr hw => (setY_execBlind hr hw v).exec s, fun hr hw t h ht => exec_overwrites_ac hr hw v h ht,
    fun hr hw => ?_, fun _ hw => ?_⟩
  · obtain rfl := eq_copyToX_of_regs hr hw
    rfl
  · obtain rfl := eq_copyToY_of_regs hw
    rfl


/-! ### The step in parts -/

/-- A word that decodes to a one-word instruction is what the next step fetches (R85, R87). -/
theorem State.nextOpcodeIs_of_decode {s : State} {i : Instr} {op : Int} {rest : List Int}
    (h : decode s.cfg.opcodeMap [s.mem.read s.pc.toNat, op] = .ok (i, rest)) (hi : i.hasOperand = false) :
    s.nextOpcodeIs i := by
  simp only [decode] at h
  cases hd : decodeOpcode s.cfg.opcodeMap (s.mem.read s.pc.toNat) with
  | none => rw [hd] at h; cases h
  | some r =>
    obtain ⟨-, hlen, -⟩ := row_build (decodeOpcode_some hd).1 op
    rw [hd] at h
    cases hr : r.hasOperand with
    | false =>
      simp only [hr, Bool.false_eq_true, if_false, Except.ok.injEq, Prod.mk.injEq] at h
      exact ⟨r, hd, h.1⟩
    | true =>
      simp only [hr, if_true, Except.ok.injEq, Prod.mk.injEq] at h
      rw [h.1, hi, hr] at hlen
      cases hlen

/-- A step that answers a next state: its fetch or decode ended the run; or it executed an instruction on the counted,
fetched state and checked the timer (R90). -/
theorem step_parts {s t : State} (h : step s = .next t) :
    s.countStep.fetchInstr s.pc = .ended t ∨
    ∃ i u, (i.hasOperand = false → s.nextOpcodeIs i) ∧ exec i (s.atExecute i) = .next u ∧
      u.timerCheck s.pc = .next t := by
  rcases step_cases (running_of_step h) h with ⟨v, hf, e⟩ | ⟨f, -, e⟩ | ⟨i, v, hf, ⟨u, he, e⟩ | ⟨f, -, e⟩ | ⟨q, -, e⟩⟩
  · cases e; exact .inl hf
  · cases e
  · obtain ⟨-, -, ⟨rest, hd⟩, rfl⟩ := State.stepFetch_ok hf
    exact .inr ⟨i, u, State.nextOpcodeIs_of_decode hd, he, e.symm⟩
  · cases e
  · cases e

/-- When the timer interrupt is taken (R221). -/
theorem State.timerFires_iff {s : State} :
    s.timerFires = true ↔ s.status = .running ∧ s.mode = .user ∧ s.count = s.timerLimit := by
  simp [State.timerFires, and_assoc]

/-- The timer check leaves the state alone, or dispatches the timer interrupt where that is due (R90 part 4, R221). -/
theorem State.timerCheck_next {s t : State} {pc0 : Int} (h : s.timerCheck pc0 = .next t) :
    (¬ (s.status = .running ∧ s.mode = .user ∧ s.count = s.timerLimit) ∧ t = s) ∨
    ((s.status = .running ∧ s.mode = .user ∧ s.count = s.timerLimit) ∧
      (s.interruptDispatch pc0 .timer).toOutcome = .next t) := by
  unfold State.timerCheck at h
  rw [← State.timerFires_iff]
  split_ifs at h with hfires
  · exact .inr ⟨hfires, h⟩
  · cases h; exact .inl ⟨hfires, rfl⟩

/-! ### The dispatch -/

/-- A stopped write ends the run. -/
theorem WriteStopped.not_running {s t : State} {pc0 a v : Int} (h : WriteStopped s pc0 a v t) : t.status ≠ .running := by
  rcases h with ⟨o, ho, rfl⟩ | ⟨-, -, rfl⟩
  · exact State.accessFault_ne_running ho
  · simp

namespace DispatchLeaves

variable {s t : State} {pc0 : Int} {kind : InterruptKind}

/-- However a dispatch goes, it enters Kernel mode, starts the count again for the timer alone, and keeps timerLimit and
the configuration (R27, R28, R212). -/
theorem frame (h : DispatchLeaves s pc0 kind t) :
    t.mode = .kernel ∧ t.count = (if kind = .timer then 0 else s.count) ∧ t.timerLimit = s.timerLimit ∧ t.cfg = s.cfg := by
  rcases h with ⟨rfl, -, -⟩ | (⟨o, -, rfl⟩ | ⟨-, -, rfl⟩) | ⟨-, ⟨o, -, rfl⟩ | ⟨-, -, rfl⟩⟩ <;>
    exact ⟨rfl, rfl, rfl, rfl⟩

/-- The count after a dispatch (R27). -/
theorem count_eq (h : DispatchLeaves s pc0 kind t) : t.count = if kind = .timer then 0 else s.count := by
  obtain ⟨-, hcount, -⟩ := h.frame
  exact hcount

/-- A dispatch that does not end the run stands at its handler's base, with two words on a new kernel stack (R211,
R212). -/
theorem entered (h : DispatchLeaves s pc0 kind t) (hc : s.cfg.WF) (ht : t.status = .running) :
    t.sp = s.cfg.kstackTop - 2 ∧ t.pc = s.handlerBase kind := by
  rcases h with ⟨rfl, -, -⟩ | h | ⟨-, h⟩
  · obtain ⟨hfirst, hsecond⟩ := hc.wrap_kstackTop
    have hsp : (s.dispatched kind).sp = s.cfg.wrap (s.cfg.wrap (s.cfg.kstackTop - 1) - 1) := rfl
    exact ⟨by rw [hsp, hfirst, hsecond], rfl⟩
  · exact absurd ht h.not_running
  · exact absurd ht h.not_running

end DispatchLeaves

/-! ### The count (R27), timerLimit and the configuration (R20, R28) -/

/-- Settles O48: a step's count is kept by its execute phase, and only the dispatch of the timer sets it. -/
theorem countMovesOnlyAsStated : Obligations.CountMovesOnlyAsStated := by
  refine ⟨fun s t h => ?_, fun u t pc0 => ⟨fun h => ?_, fun h => ?_⟩, fun i s t h => (exec_frame h).count,
    fun i s v => (setCount_execBlind i v).exec s⟩
  · rcases step_parts h with hf | ⟨i, u, -, hexec, hcheck⟩
    · obtain ⟨ir', pc', rs, o, -, ho, -, -, rfl⟩ := State.stepFetch_ended hf
      exact ⟨_, rfl, .inl ⟨fun hdue => ho hdue.1, rfl⟩⟩
    · refine ⟨u, (exec_frame hexec).count, (State.timerCheck_next hcheck).imp id fun ⟨hdue, hd⟩ => ⟨hdue, hd, ?_⟩⟩
      exact (State.dispatch_leaves hd).count_eq
  · exact (State.dispatch_leaves h).count_eq
  · exact (State.dispatch_leaves h).count_eq

/-- Settles O49: neither the fetch, nor the execute phase, nor the timer's dispatch writes them. -/
theorem stepKeepsLimitAndConfiguration : Obligations.StepKeepsLimitAndConfiguration := by
  intro s t h
  rcases step_parts h with hf | ⟨i, u, -, hexec, hcheck⟩
  · obtain ⟨ir', pc', rs, o, -, -, -, -, rfl⟩ := State.stepFetch_ended hf
    exact ⟨rfl, rfl⟩
  · have hf := exec_frame hexec
    rcases State.timerCheck_next hcheck with ⟨-, rfl⟩ | ⟨-, hd⟩
    · exact ⟨hf.timerLimit, hf.cfg⟩
    · obtain ⟨-, -, hlimit, hcfg⟩ := (State.dispatch_leaves hd).frame
      exact ⟨hlimit.trans hf.timerLimit, hcfg.trans hf.cfg⟩

/-! ### The ways between the modes (R30, R194, R231) -/

/-- A stopped read changes no mode. -/
theorem ReadStopped.mode {s t : State} {pc0 a : Int} (h : ReadStopped s pc0 a t) : t.mode = s.mode := by
  rcases h with ⟨o, -, rfl⟩ | ⟨-, -, rfl⟩ <;> rfl

/-- IRet leads to User mode or changes no mode (R191). -/
theorem exec_iRet_mode {s t : State} (h : exec .iRet s = .next t) : t.mode = s.mode ∨ t.mode = .user := by
  rcases exec_next h with h | ⟨-, h | ⟨-, rfl⟩⟩
  · exact .inl h.mode
  · exact .inl h.mode
  · exact .inr rfl

/-- The execute phase changes the mode by the software dispatch, from User mode, or by IRet, from Kernel mode (R30). -/
theorem exec_changes_mode {i : Instr} {s t : State} (h : exec i s = .next t) (hne : t.mode ≠ s.mode) :
    (i = .int ∧ s.mode = .user ∧ DispatchLeaves s s.pc0Z .software t) ∨ (i = .iRet ∧ s.mode = .kernel) := by
  have hw : .mode ∈ regsWritten i := by_contra fun hw => hne ((exec_frame h).mode hw)
  have hi : i = .int ∨ i = .iRet := by cases i <;> simp [regsWritten] at hw ⊢
  rcases hi with rfl | rfl
  · rcases exec_next h with ⟨hu, hd⟩ | ⟨-, rfl⟩
    · exact .inl ⟨rfl, hu, hd⟩
    · obtain ⟨-, -, hmode⟩ := s.kernelInt_keeps s.pc0Z s.cfg.kintAction
      exact absurd hmode hne
  · rcases exec_iRet_mode h with he | hu
    · exact absurd he hne
    · exact .inr ⟨rfl, by cases hm : s.mode with
        | user => exact absurd (hu.trans hm.symm) hne
        | kernel => rfl⟩

/-- Settles O50: the mode changes in the execute phase, or by the timer's dispatch, which starts in User mode. -/
theorem modeChangesOnlyByDispatchAndIRet : Obligations.ModeChangesOnlyByDispatchAndIRet := by
  intro s t hc h hne
  rcases step_parts h with hf | ⟨i, u, hop, hexec, hcheck⟩
  · obtain ⟨ir', pc', rs, o, -, -, -, -, rfl⟩ := State.stepFetch_ended hf
    exact absurd rfl hne
  · have hf := exec_frame hexec
    have hcfg : u.cfg = s.cfg := hf.cfg
    rcases State.timerCheck_next hcheck with ⟨-, rfl⟩ | ⟨⟨-, hu, hcount⟩, hd⟩
    · rcases exec_changes_mode hexec hne with ⟨rfl, hu, hd⟩ | ⟨rfl, hk⟩
      · refine ⟨fun _ ht => ?_, fun hk => absurd (hu.symm.trans hk) (by decide)⟩
        obtain ⟨hsp, hpc⟩ := hd.entered hc ht
        exact ⟨hsp, .inr ⟨hpc, hf.count, hop rfl⟩⟩
      · exact ⟨fun hu => absurd (hu.symm.trans hk) (by decide), fun _ => hop rfl⟩
    · have hd := State.dispatch_leaves hd
      obtain ⟨hkernel, hzero, -⟩ := hd.frame
      refine ⟨fun _ ht => ?_, fun hk => absurd (hkernel.trans hk.symm) hne⟩
      obtain ⟨hsp, hpc⟩ := hd.entered (hcfg ▸ hc) ht
      rw [hcfg] at hsp
      refine ⟨hsp, .inl ⟨?_, hzero, ?_⟩⟩
      · rw [hpc, State.handlerBase, hcfg]
      · exact (hf.count.symm.trans hcount).trans hf.timerLimit

end Sys2Proof.Machine
end

section
/-! PROOFS of the family 20_memory.md: the requests a step issues and what they do to the store, the transport that fails or
hangs, and the wire form. -/

namespace Sys2Proof.Machine

/-! ### Requests performed in order (R36, R57, R60, R68) -/

/-- From `s` to `t` the trace grew by the requests `rs`, and the store performed them. -/
structure Performed (s t : State) (rs : List Request) : Prop where
  trace : t.trace = s.trace ++ rs
  mem : t.mem = replay s.mem rs

/-- From `s` to `t` the run ended, after the requests `ps` were performed: by a check or an outcome, or by a request that a
fallible transport failed and the store did not perform (R58, R61, R201). -/
structure StoppedAfter (s t : State) (ps : List Request) : Prop where
  ended : t.status ≠ .running
  mem : t.mem = replay s.mem ps
  trace : t.trace = s.trace ++ (ps ++ [.terminate]) ∨
    (t.cfg.transportFallible = true ∧ ∃ r, t.trace = s.trace ++ (ps ++ [r, .terminate]))

/-- From `s` to `t` the requests `rs` were to be issued: all were performed, or the run ended after the first of them. -/
def Issues (s t : State) (rs : List Request) : Prop :=
  Performed s t rs ∨ ∃ ps, ps <+: rs ∧ StoppedAfter s t ps

section

variable {s t u : State} {ps qs rs : List Request} {pc0 a v : Int}

theorem Performed.nil (htrace : t.trace = s.trace) (hmem : t.mem = s.mem) : Performed s t [] :=
  ⟨by rw [htrace, List.append_nil], hmem⟩

theorem Performed.trans (h : Performed s u ps) (ht : Performed u t qs) : Performed s t (ps ++ qs) where
  trace := by rw [ht.trace, h.trace, List.append_assoc]
  mem := by rw [ht.mem, h.mem, replay_append]

theorem Performed.stopped (h : Performed s u ps) (ht : StoppedAfter u t qs) : StoppedAfter s t (ps ++ qs) where
  ended := ht.ended
  mem := by rw [ht.mem, h.mem, replay_append]
  trace := by
    have e (es : List Request) : u.trace ++ (qs ++ es) = s.trace ++ (ps ++ qs ++ es) := by
      simp only [h.trace, List.append_assoc]
    simpa only [e] using ht.trace

/-- Requests issued after others that were performed. -/
theorem Performed.issues (h : Performed s u ps) (ht : Issues u t qs) : Issues s t (ps ++ qs) := by
  rcases ht with ht | ⟨os, ho, ht⟩
  · exact .inl (h.trans ht)
  · exact .inr ⟨ps ++ os, (List.prefix_append_right_inj ps).mpr ho, h.stopped ht⟩

/-- Where the run goes on, every request was performed. -/
theorem Issues.performed (h : Issues s t rs) (ht : t.status = .running) : Performed s t rs := by
  rcases h with h | ⟨ps, -, h⟩
  · exact h
  · exact absurd ht h.ended

/-- Where no request fails, the store is the trace performed in order, Terminate included. -/
theorem Issues.replayed (h : Issues s t rs) (hf : t.cfg.transportFallible = false) : ∃ qs, Performed s t qs := by
  rcases h with h | ⟨ps, -, h⟩
  · exact ⟨rs, h⟩
  · rcases h.trace with htrace | ⟨hfail, -⟩
    · exact ⟨ps ++ [.terminate], htrace, by rw [h.mem, replay_append]; rfl⟩
    · rw [hf] at hfail; cases hfail

/-- Whatever became of the requests, the store performed the first of them, and nothing else. -/
theorem Issues.mem_eq (h : Issues s t rs) : ∃ ps, ps <+: rs ∧ t.mem = replay s.mem ps := by
  rcases h with h | ⟨ps, hp, h⟩
  · exact ⟨rs, List.prefix_rfl, h.mem⟩
  · exact ⟨ps, hp, h.mem⟩

/-- An outcome raised before any request. -/
theorem endedWith_issues {o : RunStatus} (ho : o ≠ .running) (rs : List Request) : Issues s (s.endedWith o) rs :=
  .inr ⟨[], List.nil_prefix, ho, rfl, .inl rfl⟩

/-- A request that fails is sent and not performed (R61). -/
theorem request_endedWith_issues {o : RunStatus} (ho : o ≠ .running) (hf : s.cfg.transportFallible = true) (r : Request)
    (rs : List Request) : Issues s ((s.request r).endedWith o) rs :=
  .inr ⟨[], List.nil_prefix, ho, rfl, .inr ⟨hf, r, by simp⟩⟩

theorem ReadStopped.issues (h : ReadStopped s pc0 a t) (rs : List Request) : Issues s t rs := by
  rcases h with ⟨o, ho, rfl⟩ | ⟨-, hf, rfl⟩
  · exact endedWith_issues (State.accessFault_ne_running ho) rs
  · exact request_endedWith_issues (by simp) hf _ rs

theorem WriteStopped.issues (h : WriteStopped s pc0 a v t) (rs : List Request) : Issues s t rs := by
  rcases h with ⟨o, ho, rfl⟩ | ⟨-, hf, rfl⟩
  · exact endedWith_issues (State.accessFault_ne_running ho) rs
  · exact request_endedWith_issues (by simp) hf _ rs

/-- A load issues its one Read (R117). -/
theorem LoadLeaves.issues (h : LoadLeaves s pc0 a t) : Issues s t [.read a] := by
  rcases h with h | ⟨-, rfl⟩
  · exact h.issues _
  · exact .inl ⟨rfl, rfl⟩

/-- A dispatch issues its two Writes (R212). Its second address is a wrap of a wrap, which is one wrap. -/
theorem DispatchLeaves.issues {kind : InterruptKind} (h : DispatchLeaves s pc0 kind t) :
    Issues s t (dispatchRequests s) := by
  have hwrap : s.cfg.wrap (s.cfg.wrap (s.cfg.kstackTop - 1) - 1) = s.cfg.wrap (s.cfg.kstackTop - 2) := by
    rw [Config.wrap, Config.wrap, wrap_wrap_sub, Int.sub_sub]; rfl
  have begun : Performed s (s.dispatchBegun kind) [] := .nil rfl rfl
  have half : Performed s (s.dispatchHalf kind) [.write (s.cfg.wrap (s.cfg.kstackTop - 1)) s.sp] := ⟨rfl, rfl⟩
  have done : Performed (s.dispatchHalf kind) (s.dispatched kind)
      [.write (s.cfg.wrap (s.cfg.wrap (s.cfg.kstackTop - 1) - 1)) s.pc] := ⟨rfl, rfl⟩
  rw [hwrap] at done
  rcases h with ⟨rfl, -, -⟩ | h | ⟨-, h⟩
  · exact .inl (half.trans done)
  · exact begun.issues (h.issues _)
  · exact half.issues (h.issues [.write (s.cfg.wrap (s.cfg.kstackTop - 2)) s.pc])

end

theorem requestsOf_int_user {s : State} (hm : s.mode = .user) : requestsOf s .int = dispatchRequests s := by
  simp only [requestsOf, hm]

theorem requestsOf_int_kernel {s : State} (hm : s.mode = .kernel) : requestsOf s .int = [] := by
  simp only [requestsOf, hm]

/-- Int in Kernel mode issues no request, for each KINT_ACTION (R190). -/
theorem State.kernelInt_issues (s : State) (pc0 : Int) (act : KIntAction) : Issues s (s.kernelInt pc0 act) [] := by
  cases act with
  | halt => exact endedWith_issues (by simp) []
  | nop => exact .inl (.nil rfl rfl)
  | fault => exact endedWith_issues (by simp) []

/-- The execute phase of each instruction issues its requests of R74's table, as far as it comes. -/
theorem execLeaves_issues {i : Instr} {s t : State} (ht : ExecLeaves s t i) : Issues s t (requestsOf s i) := by
  have read (a : Int) : Performed s (s.request (.read a)) [.read a] := ⟨rfl, rfl⟩
  have decremented : Performed s (s.setSp s.addrPush) [] := .nil rfl rfl
  cases i with
  | loadAddr op => exact ht.issues
  | loadIdxX op => exact ht.issues
  | loadIdxY op => exact ht.issues
  | loadSpX => exact ht.issues
  | loadInd op =>
    rcases ht with ht | ⟨-, ht⟩
    · exact ht.issues _
    · exact (read op).issues ht.issues
  | store op =>
    rcases ht with ht | ⟨-, rfl⟩
    · exact ht.issues _
    · exact .inl ⟨rfl, rfl⟩
  | jumpIfEqual op =>
    subst ht
    split_ifs <;> exact .inl (.nil rfl rfl)
  | jumpIfNotEqual op =>
    subst ht
    split_ifs <;> exact .inl (.nil rfl rfl)
  | call op =>
    rcases ht with ht | ⟨-, rfl⟩
    · exact decremented.issues (ht.issues _)
    · exact .inl ⟨rfl, rfl⟩
  | ret =>
    rcases ht with ht | ⟨-, rfl⟩
    · exact ht.issues _
    · exact .inl ⟨rfl, rfl⟩
  | push =>
    rcases ht with ht | ⟨-, rfl⟩
    · exact decremented.issues (ht.issues _)
    · exact .inl ⟨rfl, rfl⟩
  | pop =>
    rcases ht with ht | ⟨-, rfl⟩
    · exact ht.issues _
    · exact .inl ⟨rfl, rfl⟩
  | int =>
    rcases ht with ⟨hm, ht⟩ | ⟨hm, rfl⟩
    · rw [requestsOf_int_user hm]; exact ht.issues
    · rw [requestsOf_int_kernel hm]; exact s.kernelInt_issues _ _
  | iRet =>
    have half : Performed s s.returnHalf [.read s.sp] := ⟨rfl, rfl⟩
    rcases ht with ht | ⟨-, ht | ⟨-, rfl⟩⟩
    · exact ht.issues _
    · exact half.issues (ht.issues [.read (s.cfg.wrap (s.sp + 1))])
    · exact .inl (half.trans ⟨rfl, rfl⟩)
  | endRun => subst ht; exact endedWith_issues (by simp) _
  | loadImm _ | get | put _ | addX | addY | subX | subY | copyToX | copyFromX | copyToY | copyFromY | copyToSp
  | copyFromSp | jump _ | incX | decX => subst ht; exact .inl (.nil rfl rfl)

/-- The requests of an execute phase (R74). -/
theorem exec_issues {i : Instr} {s t : State} (h : exec i s = .next t) : Issues s t (requestsOf s i) :=
  execLeaves_issues (exec_next h)

/-! ### The requests of a whole step -/

/-- Reads leave the store alone (R56). -/
theorem FetchReads.replay_eq {s : State} {pc0 : Int} {rs : List Request} (h : FetchReads s pc0 rs) (m : Memory) :
    replay m rs = m := by
  induction rs with
  | nil => rfl
  | cons r rest ih =>
    obtain ⟨a, kind, rfl, -⟩ := h r (by simp)
    exact ih fun q hq => h q (by simp [hq])

/-- All a step that answers a next state issues (R74, R90): the Reads of a fetch or decode that ended the run; or those of
the fetch, the instruction's requests, and the two Writes of the timer's dispatch where that is due. -/
theorem step_issues {s t : State} (h : step s = .next t) :
    (t.status ≠ .running ∧ ∃ rs, Performed s t rs) ∨
    ∃ (i : Instr) (rest : List Int) (u : State),
      decode s.cfg.opcodeMap [s.mem.read s.pc.toNat, s.mem.read (s.cfg.wrap (s.pc + 1)).toNat] = .ok (i, rest) ∧
      exec i (s.atExecute i) = .next u ∧
      Issues s t (fetchRequests s i ++ requestsOf (s.atExecute i) i ++
        if u.timerFires = true then dispatchRequests u else []) := by
  obtain ⟨-, hf | ⟨i, v, u, hf, hexec, htimer⟩⟩ := step_next h
  · obtain ⟨ir', pc', rs, o, hrs, ho, -, -, rfl⟩ := State.stepFetch_ended hf
    refine .inl ⟨ho, rs ++ [.terminate], List.append_assoc _ _ _, ?_⟩
    rw [replay_append, hrs.replay_eq]; rfl
  · obtain ⟨hn, hop, ⟨rest, hd⟩, rfl⟩ := State.stepFetch_ok hf
    have fetched : Performed s (s.atExecute i) (fetchRequests s i) :=
      ⟨rfl, ((State.fetchRequests_reads hn hop).replay_eq s.mem).symm⟩
    have executed := fetched.issues (exec_issues hexec)
    refine .inr ⟨i, rest, u, hd, hexec, ?_⟩
    rcases htimer with ⟨hoff, rfl⟩ | ⟨hon, hdispatch⟩
    · simpa [hoff] using executed
    · rw [if_pos hon]
      exact (executed.performed (State.running_of_timerFires hon)).issues hdispatch.issues

/-- Settles O51: where no request fails, what a step issues is what the store performs. -/
theorem memoryIsTheReplayedTrace : Obligations.MemoryIsTheReplayedTrace := by
  intro s t hfallible h
  obtain ⟨-, hcfg⟩ := stepKeepsLimitAndConfiguration s t h
  obtain ⟨rs, hrs⟩ : ∃ rs, Performed s t rs := by
    rcases step_issues h with ⟨-, hended⟩ | ⟨i, rest, u, -, -, hissues⟩
    · exact hended
    · exact hissues.replayed (hcfg ▸ hfallible)
  exact ⟨rs, hrs.trace, hrs.mem⟩

/-- Settles O47: where the run goes on, no part of the step was stopped. -/
theorem execIssuesTabledRequests : Obligations.ExecIssuesTabledRequests := by
  refine ⟨fun i s t h ht => ((exec_issues h).performed ht).trace, fun s t h ht => ?_⟩
  rcases step_issues h with ⟨hended, -⟩ | ⟨i, rest, u, hd, hexec, hissues⟩
  · exact absurd ht hended
  · refine ⟨i, rest, u, hd, hexec, ?_⟩
    rw [(hissues.performed ht).trace]
    simp only [List.append_assoc]

/-! ### The words a list of requests can change (R57, R74) -/

/-- A word that no request writes keeps its value (R57). -/
theorem read_replay_of_not_written {a : Nat} {rs : List Request} (h : ∀ b v, .write b v ∈ rs → a ≠ b.toNat)
    (m : Memory) : (replay m rs).read a = m.read a := by
  induction rs generalizing m with
  | nil => rfl
  | cons r rest ih =>
    have hrest := ih fun b v hb => h b v (List.mem_cons_of_mem r hb)
    cases r with
    | read b => exact hrest m
    | terminate => exact hrest m
    | write b v =>
      calc (replay (m.write b.toNat v) rest).read a
        _ = (m.write b.toNat v).read a := hrest _
        _ = m.read a := Memory.read_write_other m v (h b v List.mem_cons_self)

/-- The Writes of R74's table go to the addresses the instruction stores to. -/
theorem storesTo_of_write_mem {i : Instr} {s : State} {b v : Int} (h : .write b v ∈ requestsOf s i) :
    b.toNat ∈ storesTo s i := by
  have single {a w : Int} (h : .write b v ∈ [Request.write a w]) : b.toNat ∈ [a.toNat] := by
    cases List.mem_singleton.mp h
    exact List.mem_singleton_self _
  cases i with
  | store op => exact single h
  | call op => exact single h
  | push => exact single h
  | int =>
    cases hm : s.mode with
    | user =>
      rw [requestsOf_int_user hm] at h
      simp only [storesTo, hm]
      rcases List.mem_cons.mp h with h | h
      · cases h; exact List.mem_cons_self
      · exact List.mem_cons_of_mem _ (single h)
    | kernel => rw [requestsOf_int_kernel hm] at h; cases h
  | loadImm _ | loadAddr _ | loadInd _ | loadIdxX _ | loadIdxY _ | loadSpX | get | put _ | addX | addY | subX | subY
  | copyToX | copyFromX | copyToY | copyFromY | copyToSp | copyFromSp | jump _ | jumpIfEqual _ | jumpIfNotEqual _ | ret
  | incX | decX | pop | iRet | endRun => simp [requestsOf] at h

/-- Settles O45: however far the execute phase comes, the store performs Writes of its table and no others. -/
theorem execStoresOnlyWhereStated : Obligations.ExecStoresOnlyWhereStated := by
  intro i s t h a ha
  obtain ⟨ps, hps, hmem⟩ := (exec_issues h).mem_eq
  rw [hmem]
  refine read_replay_of_not_written (fun b v hb hab => ha ?_) s.mem
  rw [hab]
  exact storesTo_of_write_mem (hps.subset hb)

/-- Settles O24: the checks of a fetch are those of the Store, and the store answers the word just written (R68, R70). -/
theorem storeIsSeenByTheNextFetch : Obligations.StoreIsSeenByTheNextFetch := by
  intro op pc0 s hm hr hn
  refine ⟨(s.request (.write op s.ac)).setWord op s.ac, ?_, ?_⟩
  · exact congrArg Access.toOutcome (State.store_ok hr hn)
  · have hfetch : (((s.request (.write op s.ac)).setWord op s.ac).setPc op).accessFault pc0 .fetch op = none :=
      State.accessFault_none.mpr (State.accessFault_none.mp hn)
    rw [State.fetchWord_ok (s := ((s.request (.write op s.ac)).setWord op s.ac).setPc op) hr hfetch]
    simp [State.setPc, Memory.read_write_same hm]

/-! ### The transport (R60, R61) -/

/-- Settles O56: where no Read hangs, the free value alone decides between failing and completing (R61). -/
theorem failedRequestEndsTheRun : Obligations.FailedRequestEndsTheRun := by
  intro s a v hfallible hhang
  have hfails : s.requestFails = Config.freeRequestFails s.trace.length := by rw [State.requestFails, hfallible]; rfl
  have hhangs : s.readHangs = false := by rw [State.readHangs, hhang]; rfl
  have hended (r : Request) (o : RunStatus) :
      (s.request r).endRun o = { s with status := o, trace := s.trace ++ [r, .terminate] } := by
    simp [State.endedWith, State.request]
  constructor
  · rw [State.memRead, hfails, hhangs, hended]; rfl
  · rw [State.memWrite, hfails, hended]; rfl

/-- Where no request fails, a checked read that passes its checks hangs or answers, as the free value says (R53, R60). -/
theorem State.load_infallible {s : State} {pc0 a : Int} {kind : AccessKind} (hf : s.cfg.transportFallible = false)
    (hn : s.accessFault pc0 kind a = none) :
    s.load pc0 kind a =
      if s.readHangs = true then .stuck (.readUnanswered a) else .ok (s.mem.read a.toNat) (s.request (.read a)) := by
  simp [State.load_eq, hn, State.memRead, State.requestFails, hf]

/-- A step whose opcode fetch is never answered has no next state (R60, R270). -/
theorem step_of_fetchWord_stuck {s : State} {f : Fault} (hs : s.status = .running)
    (h : s.countStep.fetchWord s.pc .fetch = .stuck f) : step s = .fault f := by
  rw [step, if_pos hs, State.stepRunning, State.fetchInstr, h]; rfl

/-- Settles O57: the count of a step touches neither the checks nor the trace, so the opcode Read hangs or is answered. -/
theorem unansweredReadIsStuck : Obligations.UnansweredReadIsStuck := by
  intro s hs hfallible hhang hn
  have hhangs : s.countStep.readHangs = Config.freeReadHangs s.trace.length := by
    rw [State.readHangs, State.countStep_cfg, State.countStep_trace, hhang]; rfl
  have hload := State.load_infallible (s := s.countStep) (by simpa using hfallible)
    ((s.countStep_accessFault s.pc .fetch s.pc).trans hn)
  rw [hhangs] at hload
  split_ifs with h
  · rw [if_pos h] at hload
    exact step_of_fetchWord_stuck hs (by simp [State.fetchWord, hload])
  · rw [if_neg h] at hload
    simp [State.fetchWord, hload, State.request, State.setPc]

/-! ### The wire form (R62) -/

theorem wireBytesLittle_length (n : Nat) (v : Int) : (wireBytesLittle n v).length = n := by
  simp [wireBytesLittle]

/-- Least significant first, the byte of weight 256^k stands at place k. -/
theorem wireBytesLittle_getElem? {n k : Nat} (hk : k < n) (v : Int) :
    (wireBytesLittle n v)[k]? = some (BitVec.ofInt 8 (v / 256 ^ k)) := by
  simp [wireBytesLittle, hk]

/-- The model's integer on the wire has its bytes where WIRE_ENDIAN puts them. -/
theorem wireInt_isWireInt (c : Config) (v : Int) : IsWireInt c v (wireInt c v) := by
  cases hc : c.wireEndian with
  | little =>
    simp only [IsWireInt, wireInt, hc, if_true]
    exact ⟨wireBytesLittle_length _ _, fun k hk => wireBytesLittle_getElem? hk v⟩
  | big =>
    simp only [IsWireInt, wireInt, hc, reduceCtorEq, if_false, List.length_reverse]
    refine ⟨wireBytesLittle_length _ _, fun k hk => ?_⟩
    have hplace : c.wireIntBytes - 1 - (c.wireIntBytes - 1 - k) = k := by omega
    rw [List.getElem?_reverse (by rw [wireBytesLittle_length]; omega), wireBytesLittle_length, hplace,
      wireBytesLittle_getElem? hk]

/-- Settles O59: the tags and the order of the parts stand in the definitions, and each integer is in wire form. -/
theorem wireFormOfRequests : Obligations.WireFormOfRequests := fun c a v =>
  ⟨wireInt c a, wireInt c v, wireInt_isWireInt c a, wireInt_isWireInt c v, rfl, rfl, rfl, rfl, rfl, rfl⟩

end Sys2Proof.Machine
end

section
/-! PROOFS of the family 30_encoding.md: decode and encode agree under every map of distinct words, the operand fetch, the step
as fetch, execute phase and timer check, the run under fuel, and the loader. -/

namespace Sys2Proof

/-! ### Decode and encode (R80 to R88) -/

section

variable {m : OpcodeMap} {w : Int} {r : DecodeRow}

/-- A format Z opcode word alone is the instruction (R80, R87). -/
theorem decode_formatZ (hd : decodeOpcode m w = some r) (hr : r.hasOperand = false) (rest : List Int) :
    decode m (w :: rest) = .ok (r.build 0, rest) := by
  simp [decode, hd, hr]

/-- A format O opcode word takes the word after it whole as its operand (R80, R82, R87). -/
theorem decode_formatO (hd : decodeOpcode m w = some r) (hr : r.hasOperand = true) (op : Int) (rest : List Int) :
    decode m (w :: op :: rest) = .ok (r.build op, rest) := by
  simp [decode, hd, hr]

end

/-- All a decode that answers an instruction has read: the opcode word of a row, and the operand word of a format O row
(R80, R85, R87). -/
theorem decode_ok {m : OpcodeMap} {ws rest : List Int} {i : Instr} (h : decode m ws = .ok (i, rest)) :
    ∃ w r, decodeOpcode m w = some r ∧
      ((r.hasOperand = false ∧ r.build 0 = i ∧ ws = w :: rest) ∨
       (r.hasOperand = true ∧ ∃ op, r.build op = i ∧ ws = w :: op :: rest)) := by
  cases ws with
  | nil => cases h
  | cons w ws =>
    cases hd : decodeOpcode m w with
    | none => simp [decode, hd] at h
    | some r =>
      refine ⟨w, r, hd, ?_⟩
      cases hr : r.hasOperand with
      | false =>
        rw [decode_formatZ hd hr] at h
        cases h
        exact .inl ⟨rfl, rfl, rfl⟩
      | true =>
        cases ws with
        | nil => simp [decode, hd, hr] at h
        | cons op ws =>
          rw [decode_formatO hd hr] at h
          cases h
          exact .inr ⟨rfl, op, rfl, rfl⟩

/-- Settles O1: the instruction's row is found by its opcode word, and builds the instruction back. -/
theorem decodeOfEncode : Obligations.DecodeOfEncode := by
  intro m hm i rest
  obtain ⟨r, hr, hvalue, -, op, rfl, hwords⟩ := row_of_instr m i
  have hd : decodeOpcode m (opcodeOf m (r.build op)) = some r := hvalue ▸ decodeOpcode_of_mem hm hr
  rw [encode, hwords]
  cases hop : r.hasOperand with
  | true => exact decode_formatO hd hop op rest
  | false =>
    obtain ⟨-, -, -, hbuild⟩ := row_build hr op
    rw [hbuild hop] at hd ⊢
    exact decode_formatZ hd hop rest

/-- Settles O2: what a row builds has the row's opcode word and operand words. -/
theorem encodeOfDecode : Obligations.EncodeOfDecode := by
  intro m ws rest i h
  obtain ⟨w, r, hd, ⟨hop, rfl, rfl⟩ | ⟨hop, op, rfl, rfl⟩⟩ := decode_ok h
  all_goals
    obtain ⟨hr, rfl⟩ := decodeOpcode_some hd
    simp [encode, row_build hr, hop]

/-- A word decodes exactly when it is one of the map's opcode words (R85, R86). -/
theorem decodeOpcode_isSome_iff (m : OpcodeMap) (w : Int) : (decodeOpcode m w).isSome = true ↔ w ∈ m.words := by
  simp [decodeOpcode, ← decodeRows_values]

/-- Settles O3: the words of the reference map are those numbers. -/
theorem legalOpcodesOfReferenceMap : Obligations.LegalOpcodesOfReferenceMap := by
  intro w
  rw [decodeOpcode_isSome_iff]
  simp only [OpcodeMap.words, OpcodeMap.reference, List.cons_append, List.nil_append, List.mem_cons, List.not_mem_nil,
    or_false]
  omega

/-- An instruction has as many words as its length says (R80, R83). -/
theorem length_encode (m : OpcodeMap) (i : Instr) : (encode m i).length = i.length := by
  obtain ⟨r, -, -, hop, op, -, hwords⟩ := row_of_instr m i
  rw [encode, hwords, Instr.length, ← hop]
  cases r.hasOperand <;> rfl

/-- Settles O4: two words exactly for the instructions with an operand, and these are the eleven. -/
theorem operandBearingInstructionsAreEleven : Obligations.OperandBearingInstructionsAreEleven := by
  intro m i
  rw [length_encode]
  cases i with
  | loadImm op | loadAddr op | loadInd op | loadIdxX op | loadIdxY op | store op | put op | jump op | jumpIfEqual op
  | jumpIfNotEqual op | call op => exact ⟨iff_of_true rfl ⟨op, by simp⟩, fun h => absurd rfl h⟩
  | loadSpX | get | addX | addY | subX | subY | copyToX | copyFromX | copyToY | copyFromY | copyToSp | copyFromSp | ret
  | incX | decX | push | pop | int | iRet | endRun => exact ⟨iff_of_false (by decide) (by simp), fun _ => rfl⟩

/-- Settles O5: each list of words is decoded by evaluation. -/
theorem referenceWordsDecode : Obligations.ReferenceWordsDecode :=
  ⟨rfl, rfl, rfl, rfl, rfl, rfl, rfl, rfl, rfl⟩

end Sys2Proof

namespace Sys2Proof.Machine

/-! ### The fetch of an instruction (R81, R87) -/

/-- The decode of a format O opcode word in ir fetches the operand word and builds the instruction with it (R87). -/
theorem State.decodeIr_formatO {s : State} {r : DecodeRow} (hd : decodeOpcode s.cfg.opcodeMap s.ir = some r)
    (hr : r.hasOperand = true) (pc0 : Int) :
    s.decodeIr pc0 = (s.fetchWord pc0 .operand).bind fun op t => .ok (r.build op) t := by
  simp [State.decodeIr, hd, hr]

/-- The decode of a format Z opcode word in ir is the instruction (R87). -/
theorem State.decodeIr_formatZ {s : State} {r : DecodeRow} (hd : decodeOpcode s.cfg.opcodeMap s.ir = some r)
    (hr : r.hasOperand = false) (pc0 : Int) : s.decodeIr pc0 = .ok (r.build 0) s := by
  simp [State.decodeIr, hd, hr]

/-- The operand fetch of an instruction whose row stands in every map: the fetch is that of its row (R81, R87, R110). -/
theorem operandFetchAsStated_of_row {build : Int → Instr}
    (hrow : ∀ m, ⟨opcodeOf m (build 0), true, build⟩ ∈ decodeRows m) : OperandFetchAsStated build := by
  intro s pc0 hm hir
  have hd : decodeOpcode s.cfg.opcodeMap s.ir = some ⟨_, true, build⟩ := hir ▸ decodeOpcode_of_mem hm (hrow _)
  rw [State.decodeIr_formatO hd rfl]
  exact ⟨fun o ho => by rw [State.fetchWord_fault ho, Access.bind_ended],
    fun hn hr => by rw [State.fetchWord_ok hr hn, Access.bind_ok]⟩

/-- Settles O15: each of the eleven has its row in R84's table. -/
theorem operandFetchOfEveryFormatO : Obligations.OperandFetchOfEveryFormatO := by
  refine ⟨?_, ?_, ?_, ?_, ?_, ?_, ?_, ?_, ?_, ?_, ?_⟩ <;>
    exact operandFetchAsStated_of_row fun m => by simp [opcodeOf, decodeRows, loadStoreRows, inOutRows, controlRows]

/-- Where every request completes and the checks pass, words that decode are fetched (R81, R87). -/
theorem State.fetchInstr_of_decode {s : State} {pc0 : Int} {i : Instr} {rest : List Int} (hr : s.Reliable)
    (hn : s.accessFault pc0 .fetch s.pc = none)
    (hop : i.hasOperand = true → s.accessFault pc0 .operand (s.cfg.wrap (s.pc + 1)) = none)
    (h : decode s.cfg.opcodeMap [s.mem.read s.pc.toNat, s.mem.read (s.cfg.wrap (s.pc + 1)).toNat] = .ok (i, rest)) :
    ∃ t, s.fetchInstr pc0 = .ok i t := by
  rw [State.fetchInstr, State.fetchWord_ok hr hn, Access.bind_ok]
  obtain ⟨w, r, hd, ⟨hformat, rfl, hw⟩ | ⟨hformat, op, rfl, hw⟩⟩ := decode_ok h
  · cases hw
    exact ⟨_, State.decodeIr_formatZ hd hformat pc0⟩
  · cases hw
    obtain ⟨-, hbuild, -⟩ := row_build (decodeOpcode_some hd).1 (s.mem.read (s.cfg.wrap (s.pc + 1)).toNat)
    rw [State.decodeIr_formatO hd hformat, State.fetchWord_ok]
    · exact ⟨_, rfl⟩
    · exact hr
    · exact hop (hbuild.trans hformat)

/-! ### The step (R90) -/

section

variable {s t : State}

/-- A step whose fetch or decode ends the run (R90 part 2, R93). -/
theorem step_of_fetch_ended (hs : s.status = .running) (h : s.countStep.fetchInstr s.pc = .ended t) :
    step s = .next t := by
  rw [step, if_pos hs, State.stepRunning, h]

/-- A step whose fetch goes through: the execute phase, then the timer check (R90 parts 3 and 4). -/
theorem step_of_fetch_ok {i : Instr} (hs : s.status = .running) (h : s.countStep.fetchInstr s.pc = .ok i t) :
    step s = andThen (exec i t) fun u => u.timerCheck s.pc := by
  rw [step, if_pos hs, State.stepRunning, h]
  dsimp only
  cases exec i t <;> rfl

end

/-- Settles O12: the fetch answers the decoded instruction, and leaves the state `atExecute`. -/
theorem stepRunsDecodedInstruction : Obligations.StepRunsDecodedInstruction := by
  intro s i rest hs hr hn hop hd
  obtain ⟨t, ht⟩ : ∃ t, s.countStep.fetchInstr s.pc = .ok i t :=
    State.fetchInstr_of_decode (rest := rest) (by simpa [State.Reliable] using hr) (by simpa using hn) (by simpa using hop)
      (by simpa using hd)
  obtain ⟨-, -, -, rfl⟩ := State.stepFetch_ok ht
  exact step_of_fetch_ok hs ht

/-- Settles O13: the count of a step touches neither the checks nor pc, and the stopped fetch ends the run. -/
theorem stepStopsOnFetchFault : Obligations.StepStopsOnFetchFault := by
  intro s o hs ho
  have hfetch : s.countStep.fetchWord s.pc .fetch = .ended (s.countStep.endedWith o) :=
    State.fetchWord_fault (by simpa using ho)
  rw [step_of_fetch_ended hs (by rw [State.fetchInstr, hfetch, Access.bind_ended]), State.countStep_eq]
  rfl

/-! ### The run under fuel (R91, R271) -/

theorem andThen_assoc (o : Host.Outcome State Fault Refusal) (k l : State → Host.Outcome State Fault Refusal) :
    andThen (andThen o k) l = andThen o fun t => andThen (k t) l := by
  cases o <;> rfl

/-- What is done to an outcome answers a next state only after the outcome did. -/
theorem andThen_next {o : Host.Outcome State Fault Refusal} {k : State → Host.Outcome State Fault Refusal} {t : State}
    (h : andThen o k = .next t) : ∃ u, o = .next u ∧ k u = .next t := by
  cases o with
  | next u => exact ⟨u, rfl, h⟩
  | fault f => cases h
  | refused r => cases h

/-- The run of an ended state stays there (R91). -/
theorem run_of_ended {s : State} (hs : s.status ≠ .running) (n : Nat) : run n s = .next s := by
  cases n with
  | zero => rfl
  | succ n => rw [run, if_neg hs]

/-- The run of a running state is one step and the run after it (R91). -/
theorem run_succ_of_running {s : State} (hs : s.status = .running) (n : Nat) :
    run (n + 1) s = andThen (step s) (run n) := by
  rw [run, if_pos hs]
  cases step s <;> rfl

/-- A run can be cut in two anywhere (R91). -/
theorem run_add (m n : Nat) (s : State) : run (m + n) s = andThen (run m s) (run n) := by
  induction m generalizing s with
  | zero => rw [Nat.zero_add]; rfl
  | succ m ih =>
    by_cases hs : s.status = .running
    · calc run (m + 1 + n) s
        _ = run (m + n + 1) s := by rw [Nat.add_right_comm]
        _ = andThen (step s) (run (m + n)) := run_succ_of_running hs _
        _ = andThen (step s) fun t => andThen (run m t) (run n) := congrArg (andThen (step s)) (funext ih)
        _ = andThen (andThen (step s) (run m)) (run n) := (andThen_assoc _ _ _).symm
        _ = andThen (run (m + 1) s) (run n) := by rw [run_succ_of_running hs]
    · rw [run_of_ended hs, run_of_ended hs]
      exact (run_of_ended hs n).symm

/-- What every step keeps, every run keeps. -/
theorem run_keeps {P : State → Prop} (hstep : ∀ s t, P s → step s = .next t → P t) {n : Nat} {s t : State} (h : P s)
    (hrun : run n s = .next t) : P t := by
  induction n generalizing s with
  | zero => cases hrun; exact h
  | succ n ih =>
    by_cases hs : s.status = .running
    · rw [run_succ_of_running hs] at hrun
      obtain ⟨u, hu, hrun⟩ := andThen_next hrun
      exact ih (hstep s u h hu) hrun
    · rw [run_of_ended hs] at hrun
      cases hrun
      exact h

/-! ### A run that never ends (R271): a Kernel-mode jump to itself, which the timer does not interrupt -/

/-- A running Kernel-mode state of the reference configuration at address 0, with `Jump 0` as the whole memory. -/
structure State.Looping (s : State) : Prop where
  cfg : s.cfg = Config.reference
  status : s.status = .running
  mode : s.mode = .kernel
  pc : s.pc = 0
  mem : s.mem = ⟨[(0, 20)]⟩

/-- The jump goes back to itself, and in Kernel mode no timer fires (R160, R221). -/
theorem State.Looping.step_next {s : State} (h : s.Looping) : ∃ t, step s = .next t ∧ t.Looping := by
  obtain ⟨hcfg, hs, hmode, hpc, hmem⟩ := h
  have hr : s.Reliable := by rw [State.Reliable, hcfg]; exact ⟨rfl, rfl⟩
  have hwrap : s.cfg.wrap (s.pc + 1) = 1 := by rw [hcfg, hpc]; rfl
  have hpass (kind : AccessKind) {a : Int} (ha : a = 0 ∨ a = 1) : s.accessFault s.pc kind a = none := by
    rw [State.accessFault_none, hmode, hcfg]
    rcases ha with rfl | rfl <;> decide
  have hd : decode s.cfg.opcodeMap [s.mem.read s.pc.toNat, s.mem.read (s.cfg.wrap (s.pc + 1)).toNat] =
      .ok (.jump 0, []) := by
    rw [hwrap, hcfg, hpc, hmem]; rfl
  have htimer : ((s.atExecute (.jump 0)).setPc 0).timerFires = false := by
    simp [State.timerFires, State.atExecute, hmode]
  refine ⟨(s.atExecute (.jump 0)).setPc 0, ?_, hcfg, hs, hmode, rfl, hmem⟩
  calc step s
    _ = andThen (exec (.jump 0) (s.atExecute (.jump 0))) fun u => u.timerCheck s.pc :=
      stepRunsDecodedInstruction s _ [] hs hr (hpass _ (.inl hpc)) (fun _ => hpass _ (.inr hwrap)) hd
    _ = ((s.atExecute (.jump 0)).setPc 0).timerCheck s.pc := rfl
    _ = .next ((s.atExecute (.jump 0)).setPc 0) := by simp [State.timerCheck, htimer]

/-- A looping state loops after any fuel. -/
theorem State.Looping.run_next {s : State} (h : s.Looping) (n : Nat) : ∃ t, run n s = .next t ∧ t.Looping := by
  induction n generalizing s with
  | zero => exact ⟨s, rfl, h⟩
  | succ n ih =>
    obtain ⟨u, hu, hloop⟩ := h.step_next
    rw [run_succ_of_running h.status, hu]
    exact ih hloop

/-- The start of a run of `Jump 0`, in Kernel mode. -/
def loopStart : State :=
  { launchState Config.reference ⟨100, 0, 0, 0, 0, ⟨[(0, 20)]⟩⟩ with mode := .kernel }

theorem loopStart_looping : loopStart.Looping := ⟨rfl, rfl, rfl, rfl, rfl⟩

/-- A launch has the invariant, and in Kernel mode it asks less of count. -/
theorem loopStart_inv : loopStart.Inv :=
  { launchState_inv (c := Config.reference) (l := ⟨100, 0, 0, 0, 0, ⟨[(0, 20)]⟩⟩) (by decide) (by decide) (by decide)
      (by decide) (by decide) with
    countBelow := fun _ hmode => by cases hmode }

/-- Settles O55: the run follows the step, which keeps the invariant; the Kernel-mode jump to itself never ends. -/
theorem runRepeatsStepAndNeedNotEnd : Obligations.RunRepeatsStepAndNeedNotEnd :=
  ⟨fun n _ hs => run_of_ended hs n, fun n _ hs => run_succ_of_running hs n, run_add,
    fun _ _ _ h hrun => run_keeps stepKeepsInv h hrun,
    loopStart, loopStart_inv, fun n => (loopStart_looping.run_next n).imp fun _ ⟨hrun, hloop⟩ => ⟨hrun, hloop.status⟩⟩

/-! ### The loader (R95) -/

/-- Settles O58: the loader is evaluated on the example's lines. -/
theorem loadFileExample : Obligations.LoadFileExample :=
  ⟨⟨[(0, 1), (1, 5), (2, 50), (1000, 30)]⟩, by decide⟩

end Sys2Proof.Machine
end

section
/-! PROOFS of the family 40_load_store.md: what each load and the store do where their checks stop them, and where they pass
and every request completes. -/

namespace Sys2Proof.Machine

/-! ### The execute phases (R111 to R116), with the addresses and pc0 written out -/

section

variable (op : Int) (s : State)

theorem exec_loadAddr : exec (.loadAddr op) s = (s.loadAc (s.pc - 2) op).toOutcome := rfl

theorem exec_loadInd :
    exec (.loadInd op) s = ((s.load (s.pc - 2) .data op).bind fun p t => t.loadAc (s.pc - 2) p).toOutcome := rfl

theorem exec_loadIdxX : exec (.loadIdxX op) s = (s.loadAc (s.pc - 2) (s.cfg.wrap (op + s.x))).toOutcome := rfl

theorem exec_loadIdxY : exec (.loadIdxY op) s = (s.loadAc (s.pc - 2) (s.cfg.wrap (op + s.y))).toOutcome := rfl

theorem exec_loadSpX : exec .loadSpX s = (s.loadAc (s.pc - 1) (s.cfg.wrap (s.sp + s.x))).toOutcome := rfl

theorem exec_store : exec (.store op) s = (s.store (s.pc - 2) op s.ac).toOutcome := rfl

end

/-! ### The load into ac (R117) -/

/-- A load into ac the checks stop: no request is sent and ac is kept. -/
theorem State.loadAc_fault {s : State} {pc0 a : Int} {o : RunStatus} (h : s.accessFault pc0 .data a = some o) :
    s.loadAc pc0 a = .ended (s.endedWith o) := by
  rw [State.loadAc, State.load_fault h, Access.bind_ended]

/-- A load into ac that goes through: the stored word, with one Read. -/
theorem State.loadAc_ok {s : State} {pc0 a : Int} (hr : s.Reliable) (h : s.accessFault pc0 .data a = none) :
    s.loadAc pc0 a = .ok () { s with ac := s.mem.read a.toNat, trace := s.trace ++ [.read a] } := by
  rw [State.loadAc, State.load_ok hr h, Access.bind_ok, State.request, State.setAc]

/-- An instruction whose execute phase is one load into ac: its checks stop it, or ac takes the word. -/
theorem exec_of_loadAc {i : Instr} {s : State} {pc0 a : Int} (hi : exec i s = (s.loadAc pc0 a).toOutcome) :
    (∀ o, s.accessFault pc0 .data a = some o → exec i s = .next (s.endedWith o)) ∧
    (s.accessFault pc0 .data a = none → s.Reliable →
      exec i s = .next { s with ac := s.mem.read a.toNat, trace := s.trace ++ [.read a] }) :=
  ⟨fun o ho => by rw [hi, State.loadAc_fault ho, Access.toOutcome_ended],
    fun hn hr => by rw [hi, State.loadAc_ok hr hn, Access.toOutcome_ok]⟩

/-! ### The obligations -/

/-- Settles O19: the operand fetch is that of every format O instruction, and the execute phase only writes ac. -/
theorem loadImmResult : Obligations.LoadImmResult := by
  obtain ⟨hfetch, -⟩ := operandFetchOfEveryFormatO
  exact ⟨hfetch, fun op => ⟨rfl, fun s => rfl⟩⟩

/-- Settles O20: after its operand fetch, LoadAddr is one load into ac at op. -/
theorem loadAddrResult : Obligations.LoadAddrResult := by
  obtain ⟨-, hfetch, -⟩ := operandFetchOfEveryFormatO
  exact ⟨hfetch, fun op => ⟨rfl, fun s => exec_of_loadAc (exec_loadAddr op s)⟩⟩

/-- Settles O21: a Read changes neither the mode nor the configuration, so the second read meets the checks of the state
before the first. -/
theorem loadIndResult : Obligations.LoadIndResult := by
  obtain ⟨-, -, hfetch, -⟩ := operandFetchOfEveryFormatO
  refine ⟨hfetch, fun op => ⟨rfl, fun s => ⟨fun o ho => ?_, fun hn hr => ?_⟩⟩⟩
  · rw [exec_loadInd, State.load_fault ho, Access.bind_ended, Access.toOutcome_ended]
  · have hsame : (s.request (.read op)).accessFault (s.pc - 2) .data (s.mem.read op.toNat) =
        s.accessFault (s.pc - 2) .data (s.mem.read op.toNat) := State.accessFault_congr rfl rfl _ _ _
    rw [exec_loadInd, State.load_ok hr hn, Access.bind_ok]
    refine ⟨fun o ho => ?_, fun hp => ?_⟩
    · rw [State.loadAc_fault (hsame.trans ho)]
      simp [State.endedWith, State.request]
    · rw [State.loadAc_ok (s := s.request (.read op)) hr (hsame.trans hp)]
      simp [State.request]

/-- Settles O22: each of the three is one load into ac, at its wrapped address. -/
theorem indexedLoadResults : Obligations.IndexedLoadResults := by
  intro op s
  obtain ⟨hxFault, hxPass⟩ := exec_of_loadAc (exec_loadIdxX op s)
  obtain ⟨hyFault, hyPass⟩ := exec_of_loadAc (exec_loadIdxY op s)
  obtain ⟨hspFault, hspPass⟩ := exec_of_loadAc (exec_loadSpX s)
  exact ⟨hxFault, hxPass, hyFault, hyPass, hspFault, hspPass⟩

/-- Settles O23: Store is the checked write of ac at op (R67). -/
theorem storeResult : Obligations.StoreResult := by
  intro op s
  refine ⟨fun o ho => ?_, fun hn hr => ?_⟩
  · rw [exec_store, State.store_fault ho, Access.toOutcome_ended]
  · rw [exec_store, State.store_ok hr hn, Access.toOutcome_ok, State.request, State.setWord]

end Sys2Proof.Machine
end

section
/-! PROOFS of the family 41_io.md: the draw of Get, the event of Put, and the reference rendering of events. -/

namespace Sys2Proof.Machine

/-! ### The draw (R131) -/

/-- The environment's draw lies in [1, 100], whatever it is. -/
theorem State.draw_bounds (s : State) : 1 ≤ s.draw ∧ s.draw ≤ 100 := by
  have hlt := (Config.freeDraw s.draws).isLt
  unfold State.draw
  omega

/-! ### The event of each selector (R132) -/

theorem portEvent_one (v : Int) : portEvent 1 v = .printInt v := rfl

theorem portEvent_two (v : Int) : portEvent 2 v = .printChar v := rfl

/-- A selector that names no form of print is reported (R205). -/
theorem portEvent_other {op : Int} (h1 : op ≠ 1) (h2 : op ≠ 2) (v : Int) : portEvent op v = .portError op := by
  rw [portEvent, if_neg h1, if_neg h2]

/-! ### The execute phases (R130, R132) -/

theorem exec_get (s : State) : exec .get s = .next { s with ac := s.draw, draws := s.draws + 1 } := rfl

theorem exec_put (op : Int) (s : State) :
    exec (.put op) s = .next { s with out := s.out ++ [portEvent op s.ac] } := rfl

/-! ### The obligations -/

/-- Settles O25: the word is the environment's draw, whose bounds hold for every value of it. -/
theorem getDrawsFromOneToHundred : Obligations.GetDrawsFromOneToHundred := by
  intro s
  obtain ⟨hlow, hhigh⟩ := s.draw_bounds
  exact ⟨s.draw, s.draws + 1, hlow, hhigh, exec_get s⟩

/-- Settles O26: Put appends `portEvent`, by the cases of its selector. -/
theorem putEmitsOneEvent : Obligations.PutEmitsOneEvent := by
  intro op s
  rw [exec_put]
  refine ⟨fun h => ?_, fun h => ?_, fun h1 h2 => ?_⟩
  · rw [h, portEvent_one]
  · rw [h, portEvent_two]
  · rw [portEvent_other h1 h2]

/-- Settles O60: the four events are rendered by evaluation, and a port error has its selector as diagnostic. -/
theorem renderingOfVectors : Obligations.RenderingOfVectors := ⟨by decide, rfl⟩

end Sys2Proof.Machine
end

section
/-! PROOFS of the family 42_arith_copy.md: the wrapped sums and differences, and the register copies. -/

namespace Sys2Proof.Machine

/-! ### Wrapping to WORD_BITS (R11, R150) -/

/-- In a well-formed configuration `Config.wrap` is the wrap that claims speak of, which never mentions it. -/
theorem wrap_isWrapOf {c : Config} (h : c.WF) (e : Int) : IsWrapOf c (c.wrap e) e :=
  ⟨h.wrap_isWord e, dvd_wrap_sub c.wordBits e⟩

/-! ### The execute phases (R140 to R149) -/

section

variable (s : State)

theorem exec_addX : exec .addX s = .next { s with ac := s.cfg.wrap (s.ac + s.x) } := rfl

theorem exec_addY : exec .addY s = .next { s with ac := s.cfg.wrap (s.ac + s.y) } := rfl

theorem exec_subX : exec .subX s = .next { s with ac := s.cfg.wrap (s.ac - s.x) } := rfl

theorem exec_subY : exec .subY s = .next { s with ac := s.cfg.wrap (s.ac - s.y) } := rfl

theorem exec_copyToX : exec .copyToX s = .next { s with x := s.ac } := rfl

theorem exec_copyFromX : exec .copyFromX s = .next { s with ac := s.x } := rfl

theorem exec_copyToY : exec .copyToY s = .next { s with y := s.ac } := rfl

theorem exec_copyFromY : exec .copyFromY s = .next { s with ac := s.y } := rfl

theorem exec_copyToSp : exec .copyToSp s = .next { s with sp := s.ac } := rfl

theorem exec_copyFromSp : exec .copyFromSp s = .next { s with ac := s.sp } := rfl

end

/-! ### The obligations -/

/-- Settles O27: each of the four writes ac with `Config.wrap` of its exact result, at any width. -/
theorem addAndSubtractWrap : Obligations.AddAndSubtractWrap := fun s h =>
  ⟨⟨_, exec_addX s, wrap_isWrapOf h _⟩, ⟨_, exec_addY s, wrap_isWrapOf h _⟩,
    ⟨_, exec_subX s, wrap_isWrapOf h _⟩, ⟨_, exec_subY s, wrap_isWrapOf h _⟩⟩

/-- Settles O28: the encodings are rows of the reference map, and a copy is one register write, with no wrap and no check. -/
theorem registerCopies : Obligations.RegisterCopies :=
  ⟨rfl, rfl, rfl, rfl, rfl, rfl, fun s =>
    ⟨exec_copyToX s, exec_copyFromX s, exec_copyToY s, exec_copyFromY s, exec_copyToSp s, exec_copyFromSp s⟩⟩

end Sys2Proof.Machine
end

section
/-! PROOFS of the family 43_control.md: the jumps, Call and Ret, and that a Ret undoes a Call. -/

namespace Sys2Proof.Machine

/-! ### Push and pop (R24): what they do where their checks stop them, and where they pass and every request completes -/

/-- A push the checks stop: sp is decremented, and nothing is stored. -/
theorem State.pushWord_fault {s : State} {pc0 : Int} (v : Int) {o : RunStatus}
    (h : s.accessFault pc0 .write (s.cfg.wrap (s.sp - 1)) = some o) :
    s.pushWord pc0 v = .ended { s.endedWith o with sp := s.cfg.wrap (s.sp - 1) } :=
  State.store_fault (s := s.setSp s.addrPush) h

/-- A push that goes through: the word at the decremented sp, with one Write. -/
theorem State.pushWord_ok {s : State} {pc0 : Int} (v : Int) (hr : s.Reliable)
    (h : s.accessFault pc0 .write (s.cfg.wrap (s.sp - 1)) = none) :
    s.pushWord pc0 v = .ok ()
      { s with
        sp := s.cfg.wrap (s.sp - 1)
        mem := s.mem.write (s.cfg.wrap (s.sp - 1)).toNat v
        trace := s.trace ++ [.write (s.cfg.wrap (s.sp - 1)) v] } :=
  State.store_ok (s := s.setSp s.addrPush) hr h

/-- A pop the checks stop: sp is kept. -/
theorem State.popWord_fault {s : State} {pc0 : Int} {o : RunStatus} (h : s.accessFault pc0 .data s.sp = some o) :
    s.popWord pc0 = .ended (s.endedWith o) := by
  rw [State.popWord, State.addrPop, State.load_fault h, Access.bind_ended]

/-- A pop that goes through: the word at sp, sp incremented, with one Read. -/
theorem State.popWord_ok {s : State} {pc0 : Int} (hr : s.Reliable) (h : s.accessFault pc0 .data s.sp = none) :
    s.popWord pc0 = .ok (s.mem.read s.sp.toNat)
      { s with sp := s.cfg.wrap (s.sp + 1), trace := s.trace ++ [.read s.sp] } := by
  rw [State.popWord, State.addrPop, State.load_ok hr h, Access.bind_ok]
  rfl

/-- An address the checks pass for one access passes for every access of the same mode and configuration: the kind and pc0
only name the fault (R52 to R55). -/
theorem State.accessFault_none_of_passed {s t : State} {pc0 a : Int} {kind : AccessKind}
    (h : s.accessFault pc0 kind a = none) (hm : t.mode = s.mode) (hc : t.cfg = s.cfg) (pc1 : Int) (kind' : AccessKind) :
    t.accessFault pc1 kind' a = none := by
  rw [State.accessFault_none] at h ⊢
  rwa [hm, hc]

/-- The increment of a pop undoes the decrement of a push, at the ends of the word range too (R11, R24). -/
theorem wrap_wrap_pred_succ {c : Config} (h : c.WF) {v : Int} (hv : c.IsWord v) :
    c.wrap (c.wrap (v - 1) + 1) = v := by
  calc c.wrap (c.wrap (v - 1) + 1)
    _ = c.wrap (v - 1 + 1) := wrap_wrap_add c.wordBits (v - 1) 1
    _ = c.wrap v := by rw [sub_add_cancel]
    _ = v := h.wrap_eq hv

/-! ### The execute phases (R160 to R164) -/

section

variable (op : Int) (s : State)

theorem exec_jump : exec (.jump op) s = .next { s with pc := op } := rfl

theorem exec_jumpIfEqual : exec (.jumpIfEqual op) s = .next (if s.ac = 0 then { s with pc := op } else s) := by
  simp [exec, execJumpIfEqual, State.acIsZero, State.setPc]

theorem exec_jumpIfNotEqual : exec (.jumpIfNotEqual op) s = .next (if s.ac = 0 then s else { s with pc := op }) := by
  simp [exec, execJumpIfNotEqual, State.acIsZero, State.setPc]

theorem exec_call :
    exec (.call op) s = ((s.pushWord (s.pc - 2) s.pc).bind fun _ t => .ok () (t.setPc op)).toOutcome := rfl

theorem exec_ret : exec .ret s = ((s.popWord (s.pc - 1)).bind fun v t => .ok () (t.setPc v)).toOutcome := rfl

end

/-! ### The obligations -/

/-- Settles O30: the operand fetch is that of every format O instruction, and the jumps are told apart by the test of ac. -/
theorem jumpResults : Obligations.JumpResults := by
  obtain ⟨-, -, -, -, -, -, -, hjump, hequal, hnotEqual, -⟩ := operandFetchOfEveryFormatO
  refine ⟨hjump, hequal, hnotEqual, fun op => ⟨rfl, rfl, rfl, fun s => ⟨exec_jump op s, fun h => ?_, fun h => ?_⟩⟩⟩
  · rw [exec_jumpIfEqual, exec_jumpIfNotEqual, if_pos h, if_pos h]
    exact ⟨rfl, rfl⟩
  · rw [exec_jumpIfEqual, exec_jumpIfNotEqual, if_neg h, if_neg h]
    exact ⟨rfl, rfl⟩

/-- Settles O31: Call is a push of pc, and a jump only where the push goes through. -/
theorem callResult : Obligations.CallResult := by
  intro op s
  refine ⟨fun o ho => ?_, fun hn hr => ?_⟩
  · rw [exec_call, State.pushWord_fault s.pc ho, Access.bind_ended, Access.toOutcome_ended]
  · rw [exec_call, State.pushWord_ok s.pc hr hn, Access.bind_ok, Access.toOutcome_ok, State.setPc]

/-- Settles O32: Ret is a pop into pc. -/
theorem retResult : Obligations.RetResult := by
  refine ⟨rfl, fun s => ⟨fun o ho => ?_, fun hn hr => ?_⟩⟩
  · rw [exec_ret, State.popWord_fault ho, Access.bind_ended, Access.toOutcome_ended]
  · rw [exec_ret, State.popWord_ok hr hn, Access.bind_ok, Access.toOutcome_ok, State.setPc]

/-- Settles O33: the address that passed the checks of Call's Write passes those of Ret's Read, which finds the word the Call
stored there. -/
theorem retUndoesCall : Obligations.RetUndoesCall := by
  intro op pc' ir' s hc hsp hm hr hn
  obtain ⟨-, hcall⟩ := callResult op s
  obtain ⟨-, hret⟩ := retResult
  obtain ⟨-, hpop⟩ := hret
    { s with
      sp := s.cfg.wrap (s.sp - 1)
      pc := pc'
      ir := ir'
      mem := s.mem.write (s.cfg.wrap (s.sp - 1)).toNat s.pc
      trace := s.trace ++ [.write (s.cfg.wrap (s.sp - 1)) s.pc] }
  exact ⟨_, _, hcall hn hr, hpop (State.accessFault_none_of_passed hn rfl rfl _ _) hr,
    Memory.read_write_same hm _ _, wrap_wrap_pred_succ hc hsp, rfl, rfl, rfl⟩

end Sys2Proof.Machine
end

section
/-! PROOFS of the family 44_index_stack.md: the increments of x, Push and Pop, and that a Pop undoes a Push. -/

namespace Sys2Proof.Machine

/-! ### The execute phases (R180 to R183) -/

section

variable (s : State)

theorem exec_incX : exec .incX s = .next { s with x := s.cfg.wrap (s.x + 1) } := rfl

theorem exec_decX : exec .decX s = .next { s with x := s.cfg.wrap (s.x - 1) } := rfl

theorem exec_push : exec .push s = (s.pushWord (s.pc - 1) s.ac).toOutcome := rfl

theorem exec_pop : exec .pop s = ((s.popWord (s.pc - 1)).bind fun v t => .ok () (t.setAc v)).toOutcome := rfl

end

/-- A Pop the checks stop: ac and sp are kept. -/
theorem exec_pop_fault {s : State} {o : RunStatus} (h : s.accessFault (s.pc - 1) .data s.sp = some o) :
    exec .pop s = .next (s.endedWith o) := by
  rw [exec_pop, State.popWord_fault h, Access.bind_ended, Access.toOutcome_ended]

/-- A Pop that goes through: the top word in ac, sp incremented, with one Read. -/
theorem exec_pop_ok {s : State} (hr : s.Reliable) (h : s.accessFault (s.pc - 1) .data s.sp = none) :
    exec .pop s = .next
      { s with ac := s.mem.read s.sp.toNat, sp := s.cfg.wrap (s.sp + 1), trace := s.trace ++ [.read s.sp] } := by
  rw [exec_pop, State.popWord_ok hr h, Access.bind_ok, Access.toOutcome_ok, State.setAc]

/-! ### The obligations -/

/-- Settles O29: each of the two writes x with `Config.wrap` of its exact result, at any width. -/
theorem incrementAndDecrementX : Obligations.IncrementAndDecrementX := fun s h =>
  ⟨⟨_, exec_incX s, wrap_isWrapOf h _⟩, ⟨_, exec_decX s, wrap_isWrapOf h _⟩⟩

/-- Settles O34: Push is a push of ac, and ends with it whether or not the store goes through. -/
theorem pushResult : Obligations.PushResult := by
  intro s
  refine ⟨fun o ho => ?_, fun hn hr => ?_⟩
  · rw [exec_push, State.pushWord_fault s.ac ho, Access.toOutcome_ended]
  · rw [exec_push, State.pushWord_ok s.ac hr hn, Access.toOutcome_ok]

/-- Settles O35: Pop is a pop into ac; the address that passed the checks of Push's Write passes those of Pop's Read, which finds
the word the Push stored there. -/
theorem popResult : Obligations.PopResult := by
  refine ⟨rfl, fun s => ⟨fun o => exec_pop_fault, fun hn hr => exec_pop_ok hr hn⟩, fun pc' ir' s hc hsp hm hr hn => ?_⟩
  obtain ⟨-, hpush⟩ := pushResult s
  exact ⟨_, _, hpush hn hr, exec_pop_ok hr (State.accessFault_none_of_passed hn rfl rfl _ _),
    Memory.read_write_same hm _ _, wrap_wrap_pred_succ hc hsp⟩

end Sys2Proof.Machine
end

section
/-! PROOFS of the family 45_system.md: the illegal opcode, Int in both modes, IRet and End. -/

namespace Sys2Proof.Machine

variable {s : State} {pc0 : Int}

/-! ### The fetch of an illegal opcode (R193) -/

/-- A word in ir that is no opcode of the map ends the run at its decode (R87, R193). -/
theorem State.decodeIr_illegal (hd : decodeOpcode s.cfg.opcodeMap s.ir = none) (pc0 : Int) :
    s.decodeIr pc0 = .ended (s.endedWith (.invalidOpcode s.ir pc0)) := by
  rw [State.decodeIr, hd, State.endRun_eq]

/-- The fetch of a word that is no opcode reads that word alone: pc stands past it, and no operand is fetched. -/
theorem State.fetchInstr_illegal (hr : s.Reliable) (hn : s.accessFault pc0 .fetch s.pc = none)
    (hd : decodeOpcode s.cfg.opcodeMap (s.mem.read s.pc.toNat) = none) :
    s.fetchInstr pc0 = .ended
      { s with
        ir := s.mem.read s.pc.toNat
        pc := s.cfg.wrap (s.pc + 1)
        status := .invalidOpcode (s.mem.read s.pc.toNat) pc0
        trace := s.trace ++ [.read s.pc, .terminate] } := by
  rw [State.fetchInstr, State.fetchWord_ok hr hn, Access.bind_ok, State.setIr, State.decodeIr_illegal hd]
  simp [State.endedWith]

/-! ### The timer check (R221) -/

/-- The timer check of a state in which the interrupt is not due leaves it alone. -/
theorem State.timerCheck_of_not_due (h : ¬ (s.status = .running ∧ s.mode = .user ∧ s.count = s.timerLimit)) (pc0 : Int) :
    s.timerCheck pc0 = .next s := by
  rw [State.timerCheck, if_neg (State.timerFires_iff.not.mpr h)]

/-! ### The dispatch where every request completes (R212) -/

/-- In a well-formed configuration the checks stop neither Write of a dispatch: both addresses lie in the memory, and Kernel
mode has no protection (R9, R52). -/
theorem State.dispatchBegun_accessFault (hc : s.cfg.WF) (pc0 : Int) (kind : InterruptKind) :
    (s.dispatchBegun kind).accessFault pc0 .write (s.cfg.wrap (s.cfg.kstackTop - 1)) = none ∧
    (s.dispatchBegun kind).accessFault pc0 .write (s.cfg.wrap (s.cfg.wrap (s.cfg.kstackTop - 1) - 1)) = none := by
  obtain ⟨hfirst, hsecond⟩ := hc.wrap_kstackTop
  obtain ⟨-, -, -, ⟨htop, hmem, -⟩, -⟩ := hc
  have passes {a : Int} (h0 : 0 ≤ a) (hn : a < s.cfg.memWords) : (s.dispatchBegun kind).accessFault pc0 .write a = none :=
    State.accessFault_none.mpr ⟨fun huser => (nomatch huser), h0, hn⟩
  rw [hfirst, hsecond]
  exact ⟨passes (by omega) (by omega), passes (by omega) (by omega)⟩

/-- In a well-formed configuration where every request completes, a dispatch completes. -/
theorem State.interruptDispatch_ok (hc : s.cfg.WF) (hr : s.Reliable) (pc0 : Int) (kind : InterruptKind) :
    s.interruptDispatch pc0 kind = .ok () (s.dispatched kind) := by
  obtain ⟨hfirst, hsecond⟩ := State.dispatchBegun_accessFault hc pc0 kind
  have hreliable : s.cfg.transportFallible ≠ true := by simp [hr]
  rcases s.interruptDispatch_cases pc0 kind with
    ⟨hdone, -, -⟩ | ⟨o, -, hstop⟩ | ⟨r, o, -, -, hf, -⟩ | ⟨o, -, -, hstop⟩ | ⟨r, o, -, -, hf, -⟩
  · exact hdone
  · cases hfirst.symm.trans hstop
  · exact absurd hf hreliable
  · cases hsecond.symm.trans hstop
  · exact absurd hf hreliable

/-- What a dispatch leaves in a well-formed configuration, with the two kernel stack addresses written out (R212). -/
theorem State.dispatched_eq (hc : s.cfg.WF) (kind : InterruptKind) :
    s.dispatched kind =
      { s with
        count := if kind = .timer then 0 else s.count
        mode := .kernel
        sp := s.cfg.kstackTop - 2
        pc := s.handlerBase kind
        mem := (s.mem.write (s.cfg.kstackTop - 1).toNat s.sp).write (s.cfg.kstackTop - 2).toNat s.pc
        trace := s.trace ++ [.write (s.cfg.kstackTop - 1) s.sp, .write (s.cfg.kstackTop - 2) s.pc] } := by
  obtain ⟨hfirst, hsecond⟩ := hc.wrap_kstackTop
  simp [State.dispatched, State.dispatchHalf, State.dispatchBegun, hfirst, hsecond]

/-! ### The return from an interrupt (R191) -/

/-- A return whose first read the checks stop changes nothing. -/
theorem State.interruptReturn_fault {o : RunStatus} (h : s.accessFault pc0 .data s.sp = some o) :
    s.interruptReturn pc0 = .ended (s.endedWith o) := by
  rw [State.interruptReturn, State.addrPop, State.load_fault h, Access.bind_ended]

/-- A return whose first read goes through makes its second read with pc and sp already popped. -/
theorem State.interruptReturn_popped (hr : s.Reliable) (hn : s.accessFault pc0 .data s.sp = none) :
    s.interruptReturn pc0 = (s.returnHalf.load pc0 .data (s.cfg.wrap (s.sp + 1))).bind
      fun saved w => .ok () ((w.setSp saved).setMode .user) := by
  rw [State.interruptReturn, State.addrPop, State.load_ok hr hn, Access.bind_ok]
  rfl

/-- The first read changes neither the mode nor the configuration, so the second meets the checks of the state before it. -/
theorem State.returnHalf_accessFault (s : State) (pc0 : Int) (kind : AccessKind) (a : Int) :
    s.returnHalf.accessFault pc0 kind a = s.accessFault pc0 kind a :=
  State.accessFault_congr rfl rfl _ _ _

/-! ### The execute phases (R190 to R192) -/

theorem exec_int_of_user (hm : s.mode = .user) : exec .int s = (s.interruptDispatch (s.pc - 1) .software).toOutcome := by
  rw [exec, execInt, hm]
  rfl

theorem exec_int_of_kernel (hm : s.mode = .kernel) : exec .int s = .next (s.kernelInt (s.pc - 1) s.cfg.kintAction) := by
  rw [exec, execInt, hm]
  rfl

theorem exec_iRet (s : State) : exec .iRet s = (s.interruptReturn (s.pc - 1)).toOutcome := rfl

theorem exec_endRun (s : State) : exec .endRun s = .next (s.endedWith .halted) := rfl

/-! ### The obligations -/

/-- Settles O14: the count of a step touches neither the checks nor the word at pc, whose decode ends the run. -/
theorem stepStopsOnIllegalOpcode : Obligations.StepStopsOnIllegalOpcode := by
  intro s hs hr hn hd
  have hfetch := State.fetchInstr_illegal (s := s.countStep) (pc0 := s.pc) (by simpa [State.Reliable] using hr)
    (by simpa using hn) (by simpa using hd)
  rw [step_of_fetch_ended hs hfetch, State.countStep_eq]

/-- Settles O37: Int in User mode is the software dispatch, which sets no count. -/
theorem intInUserModeDispatches : Obligations.IntInUserModeDispatches := by
  intro s hm hc hr
  rw [exec_int_of_user hm, State.interruptDispatch_ok hc hr, Access.toOutcome_ok, State.dispatched_eq hc]
  rfl

/-- Settles O38: Int in Kernel mode is `kernelInt`, by the cases of KINT_ACTION. -/
theorem intInKernelModeFollowsKintAction : Obligations.IntInKernelModeFollowsKintAction := by
  intro s hm
  have hint := exec_int_of_kernel hm
  exact ⟨fun h => by rw [hint, h, State.kernelInt, State.endRun_eq], fun h => by rw [hint, h, State.kernelInt],
    fun h => by rw [hint, h, State.kernelInt, State.endRun_eq]⟩

/-- Settles O39: a stopped first read leaves the state as it was, a stopped second read the state `returnHalf`. -/
theorem iRetResult : Obligations.IRetResult := by
  intro s
  rw [exec_iRet]
  refine ⟨fun o ho => ?_, fun hn hr => ?_⟩
  · rw [State.interruptReturn_fault ho, Access.toOutcome_ended]
  · rw [State.interruptReturn_popped hr hn]
    refine ⟨fun o ho => ?_, fun hp => ?_⟩
    · rw [← State.returnHalf_accessFault] at ho
      rw [State.load_fault ho, Access.bind_ended, Access.toOutcome_ended]
      simp [State.endedWith, State.returnHalf]
    · rw [← State.returnHalf_accessFault] at hp
      rw [State.load_ok (s := s.returnHalf) hr hp, Access.bind_ok, Access.toOutcome_ok]
      simp [State.returnHalf, State.request, State.setSp, State.setMode]

/-- Settles O42: the timer is taken in a running state only, and End has ended the run. -/
theorem endHalts : Obligations.EndHalts := by
  refine ⟨rfl, fun s pc0 => ⟨exec_endRun s, fun t h => ?_⟩⟩
  rw [exec_endRun] at h
  cases h
  exact State.timerCheck_of_not_due (fun ⟨hrunning, _⟩ => nomatch hrunning) pc0

end Sys2Proof.Machine
end

section
/-! PROOFS of the family 60_exceptions.md: the outcome codes, the dispatch and the return that undoes it, the timer, and the
isolation of protected memory from a User step. -/

namespace Sys2Proof.Machine

/-! ### The outcome codes (R200) -/

/-- Settles O18, by the outcomes. -/
theorem fatalOutcomesDifferFromHalt : Obligations.FatalOutcomesDifferFromHalt := by
  intro o
  cases o <;> simp [RunStatus.code]

/-! ### The dispatch, the return that undoes it, and the timer (R212, R221, R223, R233) -/

/-- Settles O36: the dispatch completes, and its state is written out for each kind. -/
theorem dispatchSavesAndEntersTheHandler : Obligations.DispatchSavesAndEntersTheHandler := by
  intro s pc0 hc hr
  rw [State.interruptDispatch_ok hc hr, State.interruptDispatch_ok hc hr, State.dispatched_eq hc, State.dispatched_eq hc]
  exact ⟨rfl, rfl⟩

/-- The second address of a dispatch is a wrap of a wrap, which is one wrap. -/
theorem wrap_wrap_kstackTop (c : Config) : c.wrap (c.wrap (c.kstackTop - 1) - 1) = c.wrap (c.kstackTop - 2) := by
  rw [Config.wrap, Config.wrap, wrap_wrap_sub, sub_sub]
  rfl

/-- The two kernel stack words of a well-formed configuration are two (R9). -/
theorem kstackWords_ne {c : Config} (h : c.WF) : (c.kstackTop - 1).toNat ≠ (c.kstackTop - 2).toNat := by
  obtain ⟨-, -, -, ⟨htop, -, -⟩, -⟩ := h
  omega

/-- A completed dispatch leaves the interrupted sp and pc in the two kernel stack words (R212). -/
theorem State.dispatched_read {s : State} (hc : s.cfg.WF) (hm : s.mem.WF) (kind : InterruptKind) :
    (s.dispatched kind).mem.read (s.cfg.kstackTop - 2).toNat = s.pc ∧
    (s.dispatched kind).mem.read (s.cfg.kstackTop - 1).toNat = s.sp := by
  rw [State.dispatched_eq hc]
  refine ⟨Memory.read_write_same (Memory.write_wf hm _ _) _ _, ?_⟩
  dsimp only
  rw [Memory.read_write_other _ _ (kstackWords_ne hc), Memory.read_write_same hm]

/-- The state after a return from an interrupt (R191). -/
def State.returned (s : State) : State :=
  { s with
    pc := s.mem.read s.sp.toNat
    sp := s.mem.read (s.cfg.wrap (s.sp + 1)).toNat
    mode := .user
    trace := s.trace ++ [.read s.sp, .read (s.cfg.wrap (s.sp + 1))] }

/-- An IRet whose reads pass their checks, whatever pc0 a fault would name, restores pc, sp and User mode (R191). -/
theorem exec_iRet_ok {s : State} {pc0 : Int} (hr : s.Reliable) (hfirst : s.accessFault pc0 .data s.sp = none)
    (hsecond : s.accessFault pc0 .data (s.cfg.wrap (s.sp + 1)) = none) : exec .iRet s = .next s.returned := by
  obtain ⟨-, hpassed⟩ := iRetResult s
  obtain ⟨-, hreturns⟩ := hpassed (State.accessFault_none_of_passed hfirst rfl rfl _ _) hr
  exact hreturns (State.accessFault_none_of_passed hsecond rfl rfl _ _)

/-- Settles O40: the IRet's two reads are of the words the dispatch saved, and Kernel mode has no protection. -/
theorem iRetUndoesDispatch : Obligations.IRetUndoesDispatch := by
  intro s t u pc0 kind hu hc hr hm hdispatch hcfg hkernel hsp hpcWord hspWord
  rw [State.interruptDispatch_ok hc hr] at hdispatch
  cases hdispatch
  replace hcfg : u.cfg = s.cfg := hcfg
  obtain ⟨hpc, hspRead⟩ := State.dispatched_read hc hm kind
  have hnext : u.cfg.wrap (u.sp + 1) = s.cfg.kstackTop - 1 := by
    obtain ⟨hwrap, -⟩ := hc.wrap_kstackTop
    rw [hcfg, hsp, show s.cfg.kstackTop - 2 + 1 = s.cfg.kstackTop - 1 by omega, hwrap]
  obtain ⟨-, -, -, ⟨htop, hmem, -⟩, -⟩ := hc
  have passes {a : Int} (h0 : 0 ≤ a) (ha : a < s.cfg.memWords) : u.accessFault pc0 .data a = none :=
    State.accessFault_none.mpr ⟨fun huser => absurd (hkernel.symm.trans huser) (by decide), h0, hcfg ▸ ha⟩
  have hreturn : exec .iRet u = .next u.returned :=
    exec_iRet_ok (by rwa [State.Reliable, hcfg]) (passes (by omega) (by omega)) (passes (by omega) (by omega))
  refine ⟨u.returned, hreturn, ?_, ?_, hu.symm, rfl, rfl, rfl⟩
  · simp only [State.returned, hsp, hpcWord, hpc]
  · simp only [State.returned, hnext, hspWord, hspRead]

/-- Settles O16: the check asks for the three conditions. -/
theorem timerFiresExactlyAtTheLimit : Obligations.TimerFiresExactlyAtTheLimit := fun s pc0 =>
  ⟨fun h => by rw [State.timerCheck, if_pos (State.timerFires_iff.mpr h)], fun h => State.timerCheck_of_not_due h pc0⟩

/-- An opcode word whose row builds an instruction without an operand decodes to it, whatever word follows (R85, R87). -/
theorem State.nextOpcodeIs.decode {s : State} {i : Instr} (h : s.nextOpcodeIs i) (hi : i.hasOperand = false)
    (rest : List Int) : decode s.cfg.opcodeMap (s.mem.read s.pc.toNat :: rest) = .ok (i, rest) := by
  obtain ⟨r, hd, rfl⟩ := h
  obtain ⟨-, hbuild, -⟩ := row_build (decodeOpcode_some hd).1 0
  exact decode_formatZ hd (hbuild.symm.trans hi) rest

/-- Settles O41: the IRet leaves User mode at the limit, so the timer check dispatches on the state it has restored. -/
theorem deferredTimerFiresAtIRet : Obligations.DeferredTimerFiresAtIRet := by
  intro s hs hk hcount hc hr hm hfetch hop hfirst hsecond
  have hstep := stepRunsDecodedInstruction s .iRet _ hs hr hfetch (fun h => nomatch h) (hop.decode rfl _)
  have hreturn : exec .iRet (s.atExecute .iRet) = .next (s.atExecute .iRet).returned :=
    exec_iRet_ok (pc0 := s.pc) hr hfirst hsecond
  have hdue : (s.atExecute .iRet).returned.count = s.timerLimit := by
    rw [← hcount]
    exact if_neg (by rw [hk]; decide)
  obtain ⟨htimer, -⟩ := timerFiresExactlyAtTheLimit (s.atExecute .iRet).returned s.pc
  have hdispatch := State.interruptDispatch_ok (s := (s.atExecute .iRet).returned) hc hr s.pc .timer
  have hdispatched := State.dispatched_eq (s := (s.atExecute .iRet).returned) hc .timer
  obtain ⟨hpcWord, hspWord⟩ := State.dispatched_read (s := (s.atExecute .iRet).returned) hc hm .timer
  refine ⟨(s.atExecute .iRet).returned.dispatched .timer, ?_, hs, rfl, rfl, rfl, congrArg State.sp hdispatched, hpcWord,
    hspWord⟩
  rw [hstep, hreturn, andThen, htimer ⟨hs, rfl, hdue⟩, hdispatch, Access.toOutcome_ok]

/-! ### A User step reaches no protected word but by a dispatch (R52, R66, R214, R232) -/

/-- An address the checks pass in User mode lies below USER_LIMIT (R52). -/
theorem State.below_of_passed {s : State} {pc0 a : Int} {kind : AccessKind} (hn : s.accessFault pc0 kind a = none)
    (hu : s.mode = .user) : a < s.cfg.userLimit := by
  obtain ⟨hbelow, -⟩ := State.accessFault_none.mp hn
  exact hbelow hu

/-- From `s` to `t` the machine was in User mode with its configuration: every request it sent reaches only words below
USER_LIMIT, and no word from USER_LIMIT up changed. -/
structure Confined (s t : State) : Prop where
  mode : t.mode = .user
  cfg : t.cfg = s.cfg
  requests : ∃ rs, t.trace = s.trace ++ rs ∧ ∀ r ∈ rs, r.Below s.cfg.userLimit
  mem : ∀ a, s.cfg.userLimit ≤ a → t.mem.read a = s.mem.read a

namespace Confined

variable {s t u : State} {pc0 a v : Int}

theorem refl (hu : s.mode = .user) : Confined s s where
  mode := hu
  cfg := rfl
  requests := ⟨[], by simp⟩
  mem _ _ := rfl

theorem trans (h : Confined s u) (ht : Confined u t) : Confined s t where
  mode := ht.mode
  cfg := ht.cfg.trans h.cfg
  requests := by
    obtain ⟨rs, hrs, hbelow⟩ := h.requests
    obtain ⟨qs, hqs, hbelow'⟩ := ht.requests
    rw [h.cfg] at hbelow'
    exact ⟨rs ++ qs, by rw [hqs, hrs, List.append_assoc],
      fun r hr => (List.mem_append.mp hr).elim (hbelow r) (hbelow' r)⟩
  mem a ha := (ht.mem a (h.cfg ▸ ha)).trans (h.mem a ha)

/-- Requests below USER_LIMIT that leave the store as it is. -/
theorem sends (hu : t.mode = .user) (hcfg : t.cfg = s.cfg) (hmem : t.mem = s.mem) {rs : List Request}
    (htrace : t.trace = s.trace ++ rs) (hbelow : ∀ r ∈ rs, r.Below s.cfg.userLimit) : Confined s t where
  mode := hu
  cfg := hcfg
  requests := ⟨rs, htrace, hbelow⟩
  mem a _ := by rw [hmem]

/-! #### The operations on the state -/

/-- An update of the other fields. -/
theorem keeps (h : Confined s u) (hmode : t.mode = u.mode) (hcfg : t.cfg = u.cfg) (htrace : t.trace = u.trace)
    (hmem : t.mem = u.mem) : Confined s t where
  mode := hmode.trans h.mode
  cfg := hcfg.trans h.cfg
  requests := htrace ▸ h.requests
  mem := hmem ▸ h.mem

theorem request (h : Confined s u) {r : Request} (hr : r.Below u.cfg.userLimit) : Confined s (u.request r) :=
  h.trans (sends h.mode rfl rfl rfl fun q hq => by rwa [List.mem_singleton.mp hq])

theorem endedWith (h : Confined s u) (o : RunStatus) : Confined s (u.endedWith o) :=
  (h.request (r := .terminate) trivial).keeps rfl rfl rfl rfl

theorem setWord (h : Confined s u) (h0 : 0 ≤ a) (ha : a < u.cfg.userLimit) : Confined s (u.setWord a v) :=
  h.trans
    { mode := h.mode
      cfg := rfl
      requests := ⟨[], by simp⟩
      mem := fun b hb => Memory.read_write_other u.mem v (by omega) }

/-! #### The accesses and the execute phase -/

theorem read (h : Confined s u) {kind : AccessKind} (hn : u.accessFault pc0 kind a = none) :
    Confined s (u.request (.read a)) := h.request (State.below_of_passed hn h.mode)

theorem requestWrite (h : Confined s u) {kind : AccessKind} (hn : u.accessFault pc0 kind a = none) (v : Int) :
    Confined s (u.request (.write a v)) := h.request (State.below_of_passed hn h.mode)

theorem write (h : Confined s u) {kind : AccessKind} (hn : u.accessFault pc0 kind a = none) (v : Int) :
    Confined s ((u.request (.write a v)).setWord a v) := by
  obtain ⟨-, h0, -⟩ := State.accessFault_none.mp hn
  exact (h.requestWrite hn v).setWord h0 (State.below_of_passed hn h.mode)

theorem readStopped (h : Confined s u) (ht : ReadStopped u pc0 a t) : Confined s t := by
  rcases ht with ⟨o, -, rfl⟩ | ⟨hn, -, rfl⟩
  · exact h.endedWith o
  · exact (h.read hn).endedWith _

theorem writeStopped (h : Confined s u) (ht : WriteStopped u pc0 a v t) : Confined s t := by
  rcases ht with ⟨o, -, rfl⟩ | ⟨hn, -, rfl⟩
  · exact h.endedWith o
  · exact (h.requestWrite hn v).endedWith _

theorem loadLeaves (h : Confined s u) (ht : LoadLeaves u pc0 a t) : Confined s t := by
  rcases ht with ht | ⟨hn, rfl⟩
  · exact h.readStopped ht
  · exact (h.read hn).keeps rfl rfl rfl rfl

/-- Every instruction but the software interrupt. -/
theorem execLeaves {i : Instr} (hu : s.mode = .user) (hi : i ≠ .int) (ht : ExecLeaves s t i) : Confined s t := by
  have h := refl hu
  have decremented : Confined s (s.setSp s.addrPush) := h.keeps rfl rfl rfl rfl
  cases i with
  | loadAddr op => exact h.loadLeaves ht
  | loadIdxX op => exact h.loadLeaves ht
  | loadIdxY op => exact h.loadLeaves ht
  | loadSpX => exact h.loadLeaves ht
  | loadInd op =>
    rcases ht with ht | ⟨hn, ht⟩
    · exact h.readStopped ht
    · exact (h.read hn).loadLeaves ht
  | store op =>
    rcases ht with ht | ⟨hn, rfl⟩
    · exact h.writeStopped ht
    · exact h.write hn _
  | jumpIfEqual op =>
    subst ht
    split_ifs
    · exact h.keeps rfl rfl rfl rfl
    · exact h
  | jumpIfNotEqual op =>
    subst ht
    split_ifs
    · exact h
    · exact h.keeps rfl rfl rfl rfl
  | call op =>
    rcases ht with ht | ⟨hn, rfl⟩
    · exact decremented.writeStopped ht
    · exact (decremented.write (pc0 := s.pc0O) (kind := .write) hn s.pc).keeps rfl rfl rfl rfl
  | ret =>
    rcases ht with ht | ⟨hn, rfl⟩
    · exact h.readStopped ht
    · exact (h.read hn).keeps rfl rfl rfl rfl
  | push =>
    rcases ht with ht | ⟨hn, rfl⟩
    · exact decremented.writeStopped ht
    · exact decremented.write (pc0 := s.pc0Z) (kind := .write) hn s.ac
  | pop =>
    rcases ht with ht | ⟨hn, rfl⟩
    · exact h.readStopped ht
    · exact (h.read hn).keeps rfl rfl rfl rfl
  | int => exact absurd rfl hi
  | iRet =>
    rcases ht with ht | ⟨hn, ht⟩
    · exact h.readStopped ht
    · have half : Confined s s.returnHalf := (h.read hn).keeps rfl rfl rfl rfl
      rcases ht with ht | ⟨hm, rfl⟩
      · exact half.readStopped ht
      · rw [← State.returnHalf_accessFault] at hm
        exact (half.read hm).keeps hu.symm rfl rfl rfl
  | endRun => subst ht; exact h.endedWith .halted
  | loadImm _ | get | put _ | addX | addY | subX | subY | copyToX | copyFromX | copyToY | copyFromY | copyToSp
  | copyFromSp | jump _ | incX | decX => subst ht; exact h.keeps rfl rfl rfl rfl

end Confined

/-- The Reads of a fetch in User mode. -/
theorem FetchReads.below {s : State} {pc0 : Int} {rs : List Request} (h : FetchReads s pc0 rs) (hu : s.mode = .user) :
    ∀ r ∈ rs, r.Below s.cfg.userLimit := by
  intro r hr
  obtain ⟨a, kind, rfl, hn⟩ := h r hr
  exact State.below_of_passed hn hu

/-- Said once: a step that begins in User mode is confined, up to the interrupt dispatch it may end with. -/
theorem userStep_cases {s t : State} (hu : s.mode = .user) (h : step s = .next t) :
    Confined s t ∨ ∃ u pc0 kind, Confined s u ∧ DispatchLeaves u pc0 kind t := by
  obtain ⟨-, hf | ⟨i, v, u, hf, hexec, htimer⟩⟩ := step_next h
  · obtain ⟨ir', pc', rs, o, hrs, -, -, -, rfl⟩ := State.stepFetch_ended hf
    refine .inl (.sends hu rfl rfl (List.append_assoc _ _ _) fun r hr => ?_)
    rcases List.mem_append.mp hr with hr | hr
    · exact hrs.below hu r hr
    · rw [List.mem_singleton.mp hr]; trivial
  · obtain ⟨hn, hop, -, rfl⟩ := State.stepFetch_ok hf
    have fetched : Confined s (s.atExecute i) := .sends hu rfl rfl rfl ((State.fetchRequests_reads hn hop).below hu)
    rcases eq_or_ne i .int with rfl | hi
    · rcases exec_next hexec with ⟨-, hd⟩ | ⟨hk, -⟩
      · obtain ⟨hkernel, -⟩ := hd.frame
        rcases htimer with ⟨-, rfl⟩ | ⟨hon, -⟩
        · exact .inr ⟨_, _, _, fetched, hd⟩
        · obtain ⟨-, huser, -⟩ := State.timerFires_iff.mp hon
          cases hkernel.symm.trans huser
      · cases hk.symm.trans hu
    · have executed := fetched.trans (Confined.execLeaves hu hi (exec_next hexec))
      rcases htimer with ⟨-, rfl⟩ | ⟨-, hd⟩
      · exact .inl executed
      · exact .inr ⟨u, _, _, executed, hd⟩

/-- A dispatch changes no word but the two it saves (R212, R214). -/
theorem DispatchLeaves.mem_eq {s t : State} {pc0 : Int} {kind : InterruptKind} (h : DispatchLeaves s pc0 kind t) {a : Nat}
    (hfirst : a ≠ (s.cfg.wrap (s.cfg.kstackTop - 1)).toNat) (hsecond : a ≠ (s.cfg.wrap (s.cfg.kstackTop - 2)).toNat) :
    t.mem.read a = s.mem.read a := by
  obtain ⟨ps, hps, hmem⟩ := h.issues.mem_eq
  rw [hmem]
  refine read_replay_of_not_written (fun b v hb => ?_) s.mem
  have hb := hps.subset hb
  simp only [dispatchRequests, List.mem_cons, Request.write.injEq, List.not_mem_nil, or_false] at hb
  rcases hb with ⟨rfl, -⟩ | ⟨rfl, -⟩
  · exact hfirst
  · exact hsecond

/-- What a stopped write adds to the trace: Terminate, after the Write if that was sent (R58, R61). -/
theorem WriteStopped.trace {s t : State} {pc0 a v : Int} (h : WriteStopped s pc0 a v t) :
    ∃ ds, ds <+: [.write a v] ∧ t.trace = s.trace ++ (ds ++ [.terminate]) := by
  rcases h with ⟨o, -, rfl⟩ | ⟨-, -, rfl⟩
  · exact ⟨[], List.nil_prefix, rfl⟩
  · exact ⟨[.write a v], List.prefix_rfl, List.append_assoc _ _ _⟩

/-- What a dispatch adds to the trace: its Writes, as far as it comes, and Terminate where it is stopped (R74, R212). -/
theorem DispatchLeaves.trace {s t : State} {pc0 : Int} {kind : InterruptKind} (h : DispatchLeaves s pc0 kind t) :
    ∃ ds es, ds <+: dispatchRequests s ∧ t.trace = s.trace ++ es ∧ (es = ds ∨ es = ds ++ [.terminate]) := by
  rcases h with ⟨rfl, -, -⟩ | h | ⟨-, h⟩
  · refine ⟨dispatchRequests s, _, List.prefix_rfl, ?_, .inl rfl⟩
    rw [dispatchRequests, ← wrap_wrap_kstackTop]
    exact List.append_assoc _ _ _
  · obtain ⟨ds, hds, htrace⟩ := h.trace
    exact ⟨ds, _, hds.trans (List.prefix_append _ _), htrace, .inr rfl⟩
  · obtain ⟨ds, hds, htrace⟩ := h.trace
    rw [wrap_wrap_kstackTop] at hds
    exact ⟨_, _, (List.prefix_append_right_inj [_]).mpr hds, htrace.trans (List.append_assoc _ _ _), .inr rfl⟩

/-- Settles O53: a confined step changes no protected word, and a dispatch, which ends in Kernel mode, only the two
words it saves. -/
theorem userStepCannotChangeKernelMemory : Obligations.UserStepCannotChangeKernelMemory := by
  intro s t hc hu h a ha
  rcases userStep_cases hu h with hs | ⟨u, pc0, kind, hs, hd⟩
  · exact ⟨fun _ => hs.mem a ha, fun _ _ => hs.mem a ha⟩
  · obtain ⟨hkernel, -⟩ := hd.frame
    obtain ⟨hwrap, hwrap'⟩ := hc.wrap_kstackTop
    refine ⟨fun huser => absurd (hkernel.symm.trans huser) (by decide), fun hfirst hsecond => ?_⟩
    calc t.mem.read a
      _ = u.mem.read a := hd.mem_eq (by rwa [hs.cfg, hwrap]) (by rwa [hs.cfg, ← wrap_wrap_kstackTop, hwrap, hwrap'])
      _ = s.mem.read a := hs.mem a ha

/-- Settles O52: the requests of a confined step, and the Writes of the dispatch that may follow them. -/
theorem userInstructionsRequestOnlyUserMemory : Obligations.UserInstructionsRequestOnlyUserMemory := by
  refine ⟨fun i s t hu hi h => (Confined.execLeaves hu hi (exec_next h)).requests, fun s t hu h => ?_⟩
  rcases userStep_cases hu h with hs | ⟨u, pc0, kind, hs, hd⟩
  · obtain ⟨rs, hrs, hbelow⟩ := hs.requests
    exact ⟨rs, [], by rw [hrs, List.append_nil], hbelow, .inl rfl⟩
  · obtain ⟨rs, hrs, hbelow⟩ := hs.requests
    obtain ⟨ds, es, hds, htrace, hes⟩ := hd.trace
    obtain ⟨hkernel, -⟩ := hd.frame
    rw [dispatchRequests, hs.cfg] at hds
    exact ⟨rs, es, by rw [htrace, hrs], hbelow, .inr ⟨hkernel, u.sp, u.pc, ds, hds, hes⟩⟩

/-! ### A User step learns nothing of protected memory (R230, R232)

The step is run beside a step of the same state with another store in place of its own, one with the same words below
USER_LIMIT. What User mode may read is the same in both, so the two do the same at every access. -/

/-- Two stores in canonical form that hold the same words below `n`. -/
structure Memory.Twins (n : Nat) (m m' : Memory) : Prop where
  wf : m.WF
  wf' : m'.WF
  agree : m.AgreeBelow n m'

theorem Memory.Twins.write {n : Nat} {m m' : Memory} (h : m.Twins n m') (a : Nat) (v : Int) :
    (m.write a v).Twins n (m'.write a v) where
  wf := Memory.write_wf h.wf a v
  wf' := Memory.write_wf h.wf' a v
  agree b hb := by
    rcases eq_or_ne b a with rfl | hne
    · rw [Memory.read_write_same h.wf, Memory.read_write_same h.wf']
    · rw [Memory.read_write_other m v hne, Memory.read_write_other m' v hne, h.agree b hb]

/-- The state with another store in place of its own. -/
def State.withMem (s : State) (m : Memory) : State := { s with mem := m }

/-- Two results of a part of an instruction that differ in nothing but protected words of the store. -/
inductive Access.Alike {α : Type} : Access α → Access α → Prop
  | ok (v : α) {s : State} {m' : Memory} (h : s.mem.Twins s.cfg.userLimit m') : Alike (.ok v s) (.ok v (s.withMem m'))
  | ended {s : State} {m' : Memory} (h : s.mem.Twins s.cfg.userLimit m') : Alike (.ended s) (.ended (s.withMem m'))
  | stuck (f : Fault) : Alike (.stuck f) (.stuck f)

/-- Two outcomes that differ in nothing but protected words of the store. -/
inductive OutcomesAlike : Host.Outcome State Fault Refusal → Host.Outcome State Fault Refusal → Prop
  | next {s : State} {m' : Memory} (h : s.mem.Twins s.cfg.userLimit m') : OutcomesAlike (.next s) (.next (s.withMem m'))
  | fault (f : Fault) : OutcomesAlike (.fault f) (.fault f)
  | refused (r : Refusal) : OutcomesAlike (.refused r) (.refused r)

theorem Access.Alike.toOutcome {α : Type} {r r' : Access α} (h : r.Alike r') : OutcomesAlike r.toOutcome r'.toOutcome := by
  cases h with
  | ok v h => exact .next h
  | ended h => exact .next h
  | stuck f => exact .fault f

/-- What follows two results that are alike decides, as long as it does not look at protected words itself. -/
theorem Access.Alike.bind {α β : Type} {r r' : Access α} (hr : r.Alike r') {k : α → State → Access β}
    (hk : ∀ v (u : State) m, u.mem.Twins u.cfg.userLimit m → (k v u).Alike (k v (u.withMem m))) :
    (r.bind k).Alike (r'.bind k) := by
  cases hr with
  | ok v h => exact hk v _ _ h
  | ended h => exact .ended h
  | stuck f => exact .stuck f

theorem OutcomesAlike.andThen {o o' : Host.Outcome State Fault Refusal} (h : OutcomesAlike o o')
    {k : State → Host.Outcome State Fault Refusal}
    (hk : ∀ (u : State) m, u.mem.Twins u.cfg.userLimit m → OutcomesAlike (k u) (k (u.withMem m))) :
    OutcomesAlike (andThen o k) (andThen o' k) := by
  cases h with
  | next h => exact hk _ _ h
  | fault f => exact .fault f
  | refused r => exact .refused r

/-- A step whose fetch is never answered (R60, R270). -/
theorem step_of_fetch_stuck {s : State} {f : Fault} (hs : s.status = .running)
    (h : s.countStep.fetchInstr s.pc = .stuck f) : step s = .fault f := by
  rw [step, if_pos hs, State.stepRunning, h]

namespace Memory.Twins

variable {s : State} {m' : Memory} (h : s.mem.Twins s.cfg.userLimit m')
include h

/-! #### The accesses: the rule for a read holds in User mode, that for a write in both modes -/

/-- A checked read in User mode answers the same word in both, so what follows it decides. -/
theorem load_bind (hu : s.mode = .user) {α : Type} {pc0 a : Int} {kind : AccessKind} {k : Int → State → Access α}
    (hk : ∀ v, (k v (s.request (.read a))).Alike (k v ((s.request (.read a)).withMem m'))) :
    ((s.load pc0 kind a).bind k).Alike (((s.withMem m').load pc0 kind a).bind k) := by
  have hchecks : (s.withMem m').accessFault pc0 kind a = s.accessFault pc0 kind a := State.accessFault_congr rfl rfl _ _ _
  rw [State.load_eq, State.load_eq, hchecks]
  cases hn : s.accessFault pc0 kind a with
  | some o => exact .ended h
  | none =>
    obtain ⟨-, h0, -⟩ := State.accessFault_none.mp hn
    have hbelow := State.below_of_passed hn hu
    have hread : (s.withMem m').mem.read a.toNat = s.mem.read a.toNat := (h.agree _ (by omega)).symm
    have hfails : (s.withMem m').requestFails = s.requestFails := rfl
    have hhangs : (s.withMem m').readHangs = s.readHangs := rfl
    simp only [State.memRead, hfails, hhangs, hread]
    split_ifs
    · exact .ended h
    · exact .stuck _
    · exact hk (s.mem.read a.toNat)

/-- A checked write of the same word to the same address is made in both or in neither. -/
theorem store (pc0 a v : Int) : (s.store pc0 a v).Alike ((s.withMem m').store pc0 a v) := by
  have hchecks : (s.withMem m').accessFault pc0 .write a = s.accessFault pc0 .write a :=
    State.accessFault_congr rfl rfl _ _ _
  rw [State.store_eq, State.store_eq, hchecks]
  cases s.accessFault pc0 .write a with
  | some o => exact .ended h
  | none =>
    have hfails : (s.withMem m').requestFails = s.requestFails := rfl
    simp only [State.memWrite, hfails]
    split_ifs
    · exact .ended h
    · exact .ok () (s := (s.request (.write a v)).setWord a v) (h.write a.toNat v)

/-! #### The composed operations -/

theorem loadAc (hu : s.mode = .user) (pc0 a : Int) : (s.loadAc pc0 a).Alike ((s.withMem m').loadAc pc0 a) :=
  h.load_bind hu fun _ => .ok () h

theorem pushWord (pc0 v : Int) : (s.pushWord pc0 v).Alike ((s.withMem m').pushWord pc0 v) :=
  store (s := s.setSp s.addrPush) h pc0 s.addrPush v

theorem popWord (hu : s.mode = .user) (pc0 : Int) : (s.popWord pc0).Alike ((s.withMem m').popWord pc0) :=
  h.load_bind hu fun v => .ok v h

theorem enterHandler (pc0 : Int) (kind : InterruptKind) :
    (s.enterHandler pc0 kind).Alike ((s.withMem m').enterHandler pc0 kind) :=
  (store (s := s.setSp s.addrPush) h pc0 s.addrPush s.pc).bind fun _ _ _ h => .ok () h

theorem interruptDispatch (pc0 : Int) (kind : InterruptKind) :
    (s.interruptDispatch pc0 kind).Alike ((s.withMem m').interruptDispatch pc0 kind) := by
  have first := store (s := s.dispatchBegun kind) h pc0 (s.cfg.wrap (s.cfg.kstackTop - 1)) s.sp
  cases kind <;> exact first.bind fun _ _ _ h => h.enterHandler pc0 _

theorem interruptReturn (hu : s.mode = .user) (pc0 : Int) :
    (s.interruptReturn pc0).Alike ((s.withMem m').interruptReturn pc0) :=
  h.load_bind hu fun t =>
    load_bind (s := ((s.request (.read s.sp)).setSp (s.cfg.wrap (s.sp + 1))).setPc t) h hu fun _ => .ok () h

/-- A fetch in User mode, and what follows it, still in User mode. -/
theorem fetchWord_bind (hu : s.mode = .user) {pc0 : Int} {kind : AccessKind} {k : Int → State → Access Instr}
    (hk : ∀ v, ∀ u : State, u.mem.Twins u.cfg.userLimit m' → u.mode = .user → (k v u).Alike (k v (u.withMem m'))) :
    ((s.fetchWord pc0 kind).bind k).Alike (((s.withMem m').fetchWord pc0 kind).bind k) := by
  rw [State.fetchWord, State.fetchWord, Access.bind_assoc, Access.bind_assoc]
  exact h.load_bind hu fun v => hk v _ h hu

theorem decodeIr (hu : s.mode = .user) (pc0 : Int) : (s.decodeIr pc0).Alike ((s.withMem m').decodeIr pc0) := by
  cases hd : decodeOpcode s.cfg.opcodeMap s.ir with
  | none =>
    rw [State.decodeIr_illegal hd, State.decodeIr_illegal (s := s.withMem m') hd]
    exact .ended h
  | some r =>
    cases hr : r.hasOperand with
    | false =>
      rw [State.decodeIr_formatZ hd hr, State.decodeIr_formatZ (s := s.withMem m') hd hr]
      exact .ok (r.build 0) h
    | true =>
      rw [State.decodeIr_formatO hd hr, State.decodeIr_formatO (s := s.withMem m') hd hr]
      exact h.fetchWord_bind hu fun op _ h _ => .ok (r.build op) h

theorem fetchInstr (hu : s.mode = .user) (pc0 : Int) : (s.fetchInstr pc0).Alike ((s.withMem m').fetchInstr pc0) :=
  h.fetchWord_bind hu fun w u h hu => decodeIr (s := u.setIr w) h hu pc0

/-- The execute phase of every instruction in User mode. -/
theorem exec (hu : s.mode = .user) (i : Instr) : OutcomesAlike (exec i s) (exec i (s.withMem m')) := by
  have hac : (s.withMem m').ac = s.ac := rfl
  cases i with
  | loadAddr op => exact (h.loadAc hu _ _).toOutcome
  | loadInd op =>
    exact (h.load_bind hu fun p => loadAc (s := s.request (.read op)) h hu _ p).toOutcome
  | loadIdxX op => exact (h.loadAc hu _ _).toOutcome
  | loadIdxY op => exact (h.loadAc hu _ _).toOutcome
  | loadSpX => exact (h.loadAc hu _ _).toOutcome
  | store op => exact (h.store _ _ _).toOutcome
  | jumpIfEqual op =>
    rw [exec_jumpIfEqual, exec_jumpIfEqual, hac]
    split_ifs
    · exact .next h
    · exact .next h
  | jumpIfNotEqual op =>
    rw [exec_jumpIfNotEqual, exec_jumpIfNotEqual, hac]
    split_ifs
    · exact .next h
    · exact .next h
  | call op => exact ((h.pushWord _ _).bind fun _ u _ h => .ok () (s := u.setPc op) h).toOutcome
  | ret => exact ((h.popWord hu _).bind fun v u _ h => .ok () (s := u.setPc v) h).toOutcome
  | push => exact (h.pushWord _ _).toOutcome
  | pop => exact ((h.popWord hu _).bind fun v u _ h => .ok () (s := u.setAc v) h).toOutcome
  | int =>
    rw [exec_int_of_user hu, exec_int_of_user (s := s.withMem m') hu]
    exact (h.interruptDispatch _ _).toOutcome
  | iRet => exact (h.interruptReturn hu _).toOutcome
  | loadImm _ | get | put _ | addX | addY | subX | subY | copyToX | copyFromX | copyToY | copyFromY | copyToSp
  | copyFromSp | jump _ | incX | decX | endRun => exact .next h

theorem timerCheck (pc0 : Int) : OutcomesAlike (s.timerCheck pc0) ((s.withMem m').timerCheck pc0) := by
  have hfires : (s.withMem m').timerFires = s.timerFires := rfl
  rw [State.timerCheck, State.timerCheck, hfires]
  split_ifs
  · exact (h.interruptDispatch pc0 .timer).toOutcome
  · exact .next h

/-- A step that begins in User mode. -/
theorem step (hu : s.mode = .user) : OutcomesAlike (step s) (step (s.withMem m')) := by
  by_cases hs : s.status = .running
  · have hcount : (s.withMem m').countStep = s.countStep.withMem m' := by
      rw [State.countStep_eq, State.countStep_eq]; rfl
    have hfetch : (s.countStep.fetchInstr s.pc).Alike ((s.withMem m').countStep.fetchInstr s.pc) := by
      rw [hcount]
      exact fetchInstr (s := s.countStep) (by simpa using h) (by simpa using hu) s.pc
    generalize hr : s.countStep.fetchInstr s.pc = r at hfetch
    generalize hr' : (s.withMem m').countStep.fetchInstr s.pc = r' at hfetch
    cases hfetch with
    | ok i hv =>
      obtain ⟨-, -, -, rfl⟩ := State.stepFetch_ok hr
      rw [step_of_fetch_ok hs hr, step_of_fetch_ok (s := s.withMem m') hs hr']
      exact (exec (s := s.atExecute i) hv hu i).andThen fun u _ hm => hm.timerCheck s.pc
    | ended hv =>
      rw [step_of_fetch_ended hs hr, step_of_fetch_ended (s := s.withMem m') hs hr']
      exact .next hv
    | stuck f =>
      rw [step_of_fetch_stuck hs hr, step_of_fetch_stuck (s := s.withMem m') hs hr']
      exact .fault f
  · rw [endedRunHasNoStep s hs, endedRunHasNoStep (s.withMem m') hs]
    exact .fault (.runEnded s.status)

end Memory.Twins

/-- Alike outcomes differ only from USER_LIMIT up. -/
theorem OutcomesAlike.sameBelow {o o' : Host.Outcome State Fault Refusal} {n : Nat} (h : OutcomesAlike o o')
    (hn : ∀ t, o = .next t → t.cfg.userLimit = n) : SameBelow n o o' := by
  cases h with
  | next h => exact ⟨rfl, hn _ rfl ▸ h.agree⟩
  | fault f => rfl
  | refused r => rfl

/-- Settles O54: User mode reads nothing of the words in which the two stores may differ. -/
theorem userStepCannotReadKernelMemory : Obligations.UserStepCannotReadKernelMemory := by
  intro s m' hu hm hm' hagree
  have twins : s.mem.Twins s.cfg.userLimit m' := ⟨hm, hm', hagree⟩
  refine (twins.step hu).sameBelow fun t ht => ?_
  obtain ⟨-, hcfg⟩ := stepKeepsLimitAndConfiguration s t ht
  rw [hcfg]

end Sys2Proof.Machine
end
